-- ==== Sys2Proof/Word.lean ====
section
/-! DEFINITION. The word types of the ports and the operand width of a command
(spec 10_state.md R25, R26; 30_encoding.md R60, R62). -/

namespace Sys2Proof

/-- A 64-bit datapath value: the ports `bf`, `val` and `result` (R6 `XLEN`, R25, R26). Bit 0 is the
least significant bit (R7, R41). -/
abbrev Word := BitVec 64

/-- The value of an index port, `pos` or `len`: `IDX_W` = 8 bits (R6, R25). -/
abbrev Index := BitVec 8

/-- The command word on port `cmd`: pattern `wwoooo` (R60). -/
abbrev Command := BitVec 6

/-- The operand width W of a command, one constructor for each value of the field `w` (R62). -/
inductive Width where
  | w8
  | w16
  | w32
  | w64
deriving DecidableEq, Repr

/-- The value of the field `w` that selects this width (R62). -/
def Width.code : Width → Nat
  | .w8 => 0
  | .w16 => 1
  | .w32 => 2
  | .w64 => 3

/-- The operand width W in bits: `width(w) = 8 * 2^w` (R9, R62). -/
def Width.bits (w : Width) : Nat := 8 * 2 ^ w.code

end Sys2Proof
end

