-- ==== Sys2Proof/Syntax.lean ====
section
/-! DEFINITION. The instruction set: one constructor per row of the opcode map
(spec 30_encoding.md R66). -/

namespace Sys2Proof

/-- A decoded command (R60, R66): which operation, and the width its `w` field selects. The operands
are not part of the command, they arrive on the ports `bf`, `pos`, `len`, `val` (R60, R63).
Every constructor keeps `w`, also where the operation ignores it (R67, R70), so that the 64 commands
are 64 instructions and the encoder loses nothing (DEDUCED, log entry 13). -/
inductive Instr where
  /-- BIT, op 0 (R110). -/
  | bit (w : Width)
  /-- SETBIT, op 1 (R111). -/
  | setbit (w : Width)
  /-- CLRBIT, op 2, assembler alias NULLBIT (R112, R75). -/
  | clrbit (w : Width)
  /-- TGLBIT, op 3 (R113). -/
  | tglbit (w : Width)
  /-- ISSET, op 4 (R114). -/
  | isset (w : Width)
  /-- ISNULL, op 5 (R115). -/
  | isnull (w : Width)
  /-- GETBIT, op 6 (R116). -/
  | getbit (w : Width)
  /-- MASK, op 7 (R150). -/
  | mask (w : Width)
  /-- GETBITS, op 8 (R151). -/
  | getbits (w : Width)
  /-- SETBITS, op 9 (R152). -/
  | setbits (w : Width)
  /-- CLRBITS, op 10 (R153). -/
  | clrbits (w : Width)
  /-- ONES, op 11, AUX (R141). -/
  | ones (w : Width)
  /-- ZEROS, op 12, AUX (R142). -/
  | zeros (w : Width)
  /-- PARSESTEP, op 13, AUX (R130). -/
  | parsestep (w : Width)
  /-- Reserved opcode 14 (R70). -/
  | reserved14 (w : Width)
  /-- Reserved opcode 15 (R70). -/
  | reserved15 (w : Width)
deriving DecidableEq, Repr

end Sys2Proof
end

