-- ==== Sys2Proof/Decode.lean ====
section
/-! DEFINITION. Decoding and encoding of the command word (spec 30_encoding.md R60 to R62, R66, R69).
The decoder is total on all 64 commands; `HAS_AUX` does not change which row a command is, it changes
whether that row is reserved (R69, R70), which the AUX meanings decide. -/

namespace Sys2Proof

/-- The width selected by `w = cmd[5:4]` (R62): four values, none reserved. -/
def widthOfField (w : BitVec 2) : Width :=
  match w.toNat with
  | 0 => .w8
  | 1 => .w16
  | 2 => .w32
  | _ => .w64

/-- `op = cmd[3:0]` (R61). -/
def opField (cmd : Command) : BitVec 4 := cmd.extractLsb' 0 4

/-- `w = cmd[5:4]` (R62). -/
def widthField (cmd : Command) : BitVec 2 := cmd.extractLsb' 4 2

/-- The decoding procedure of R69: the row of R66 that `op` selects, with the width of `w`. -/
def decodeCommand (cmd : Command) : Instr :=
  let w := widthOfField (widthField cmd)
  match (opField cmd).toNat with
  | 0 => .bit w
  | 1 => .setbit w
  | 2 => .clrbit w
  | 3 => .tglbit w
  | 4 => .isset w
  | 5 => .isnull w
  | 6 => .getbit w
  | 7 => .mask w
  | 8 => .getbits w
  | 9 => .setbits w
  | 10 => .clrbits w
  | 11 => .ones w
  | 12 => .zeros w
  | 13 => .parsestep w
  | 14 => .reserved14 w
  | _ => .reserved15 w

/-- Why a byte is no command. -/
inductive DecodeError where
  /-- There is no byte. -/
  | noByte
  /-- Bits 7 or 6 of the byte are not 0: a command word is 6 bits (R60), port `cmd` has no place for
  them. -/
  | notACommand
deriving DecidableEq, Repr

/-- One command read from a list of bytes, a command word in the low 6 bits of one byte, with the bytes
that follow. The spec stores no command in bytes (R42, R51); this form serves the byte-oriented
interface of the host's tools (log entry 3). -/
def decodeBytes : List (BitVec 8) → Except DecodeError (Instr × List (BitVec 8))
  | [] => .error .noByte
  | b :: rest =>
    if b.toNat < 64 then .ok (decodeCommand (b.setWidth 6), rest) else .error .notACommand

/-- The opcode of the row (R66). -/
def opcode : Instr → Nat
  | .bit _ => 0
  | .setbit _ => 1
  | .clrbit _ => 2
  | .tglbit _ => 3
  | .isset _ => 4
  | .isnull _ => 5
  | .getbit _ => 6
  | .mask _ => 7
  | .getbits _ => 8
  | .setbits _ => 9
  | .clrbits _ => 10
  | .ones _ => 11
  | .zeros _ => 12
  | .parsestep _ => 13
  | .reserved14 _ => 14
  | .reserved15 _ => 15

/-- The width the instruction carries in its `w` field. -/
def widthOf : Instr → Width
  | .bit w | .setbit w | .clrbit w | .tglbit w | .isset w | .isnull w | .getbit w | .mask w
  | .getbits w | .setbits w | .clrbits w | .ones w | .zeros w | .parsestep w
  | .reserved14 w | .reserved15 w => w

/-- The command word: `cmd = 16 * w + op` (R66). -/
def encodeCommand (i : Instr) : Command := BitVec.ofNat 6 (16 * (widthOf i).code + opcode i)

/-- The command word in one byte, bits 7 and 6 zero. -/
def encode (i : Instr) : List (BitVec 8) := [(encodeCommand i).setWidth 8]

/-- The same instruction with the canonical `w` = 3 where `w` has no role (R67), which is what the
assembler emits and a disassembler prints (R77). -/
def canonicalInstr : Instr → Instr
  | .bit _ => .bit .w64
  | .mask _ => .mask .w64
  | i => i

/-- The bytes of a table word of `n` bytes, the least significant byte first. -/
def tableBytes : Nat → Nat → List (BitVec 8)
  | 0, _ => []
  | n + 1, w => BitVec.ofNat 8 w :: tableBytes n (w / 256)

/-- The instruction this decoder reads from a word of the opcode table: at least one byte, and as many
as `nbits` fills. -/
def decodeTableWord (nbits w : Nat) : Option Instr :=
  match decodeBytes (tableBytes (max 1 ((nbits + 7) / 8)) w) with
  | .ok (i, _) => some i
  | .error _ => none

end Sys2Proof
end

