-- ==== Sys2Proof/Config.lean ====
section
/-! DEFINITION. The implementation parameters of the block (spec 00_scope.md R6, 10_state.md R32). -/

namespace Sys2Proof

/-- The two parameters the model takes as arguments (R6, R32, U11). They are elaboration-time
constants: no command reads or writes them as registers (R23), and no step changes them.
The fixed form of `exec` has no argument for them, so they stand in State (log entry 1). -/
structure Config where
  /-- `HAS_AUX`: whether ONES, ZEROS and PARSESTEP exist (R4, R6; OPEN, D19). -/
  hasAux : Bool
  /-- `CHAR_ONE`: the value of `val` that PARSESTEP reads as the character `'1'` (R6, R130). -/
  charOne : Word
deriving DecidableEq, Repr

/-- `IDXMOD` = 64: the modulus of a single-bit index, whatever the operand width (R6, R96). -/
def Config.idxMod : Nat := 64

/-- `IDX_W` = 8: the width in bits of the ports `pos` and `len` (R6, D9). -/
def Config.idxW : Nat := 8

/-- `MASK_SAT` = 2^64 - 1: the value of `Mask(n)` for n >= 64 (R6, R97, D12). -/
def Config.maskSat : Word := BitVec.allOnes 64

/-- The value `CHAR_ONE` takes on this hardware: 0x31 (R6, R130, G1). -/
def Config.asciiOne : Word := 0x31#64

end Sys2Proof
end

