-- ==== Sys2Proof/Machine/Listing.lean ====
section
/-! DEFINITION. The lines of a harness listing, as the assembler leaves them
(spec 30_encoding.md R73, R74, R75). The harness is the spec's model of the host, not hardware. -/

namespace Sys2Proof.Machine

/-- The name of a host variable: a letter followed by letters, digits or `_` (R73). -/
abbrev Name := List Char

/-- The reserved name `F`: last predicate outcome (R74). -/
def Name.predicate : Name := ['F']

/-- The reserved name `OOR`: last `oor` of a range command or MASK (R74). -/
def Name.outOfRange : Name := ['O', 'O', 'R']

/-- The name `ILL`: 1 once an evaluation gave `ill` = 1 (R74). -/
def Name.illegal : Name := ['I', 'L', 'L']

/-- An operand of a line: a host variable or an unsigned literal (R73). A character literal is the
literal of its code. -/
inductive Operand where
  | var (n : Name)
  | lit (x : Word)
deriving DecidableEq, Repr

/-- A command line, one constructor per row of R73's table: the destination variable first where the
command returns a new value, then the source's argument order. -/
inductive CommandLine where
  | bit (d : Name) (i : Operand)
  | setbit (w : Width) (v : Name) (i : Operand)
  | clrbit (w : Width) (v : Name) (i : Operand)
  | tglbit (w : Width) (v : Name) (i : Operand)
  | isset (w : Width) (v : Operand) (i : Operand)
  | isnull (w : Width) (v : Operand) (i : Operand)
  | getbit (w : Width) (d : Name) (v i : Operand)
  | mask (d : Name) (n : Operand)
  | getbits (w : Width) (d : Name) (v start len : Operand)
  | setbits (w : Width) (v : Name) (start len val : Operand)
  | clrbits (w : Width) (v : Name) (start len : Operand)
  | ones (w : Width) (d : Name) (v : Operand)
  | zeros (w : Width) (d : Name) (v : Operand)
  | parsestep (w : Width) (v : Name) (c : Operand)
deriving DecidableEq, Repr

/-- One line of a listing: the directive `.let v = literal`, which involves no transaction, or a
command (R74). The pseudo-instructions of R75 are expanded before a listing runs. -/
inductive Line where
  | assign (v : Name) (x : Word)
  | command (c : CommandLine)
deriving DecidableEq, Repr

end Sys2Proof.Machine
end

