-- ==== Sys2Proof/Machine/State.lean ====
section
/-! DEFINITION. The state of the machine as plain data: the ports of the combinational block, its
parameters, and the harness that drives it (spec 10_state.md R20 to R32; 30_encoding.md R74). -/

namespace Sys2Proof.Machine

/-- The values of the five input ports in one command evaluation (R15, R25, R76). -/
structure Transaction where
  /-- Port `cmd`: the command word (R25, R60). -/
  cmd : Command
  /-- Port `bf`: the bitfield operand, right-aligned (R25, R44). -/
  bf : Word
  /-- Port `pos`: the index of a single-bit command, the start of a range (R25). -/
  pos : Index
  /-- Port `len`: the length of a range, the n of MASK (R25). -/
  len : Index
  /-- Port `val`: the replacement field of SETBITS, the character of PARSESTEP (R25). -/
  val : Word
deriving DecidableEq, Repr

/-- The values of the four output ports (R26). The defaults are the output template of R100: an output
a rule does not mention is 0. -/
structure Outputs where
  /-- Port `result`. -/
  result : Word := 0#64
  /-- Port `flag`: the boolean of ISSET and ISNULL. -/
  flag : Bool := false
  /-- Port `oor`: the out-of-range report of MASK and the range commands (R172). -/
  oor : Bool := false
  /-- Port `ill`: the report of a reserved opcode (R70). -/
  ill : Bool := false
deriving DecidableEq, Repr

/-- The harness's finite map `H` from variable names to 64-bit values (R74), in one canonical form: the
names rise strictly in the order of `Name.before` (Ops), so that equal maps are equal lists. -/
abbrev Vars := List (Name × Word)

/-- The machine. The block itself stores nothing (R20): `inp` is what its input ports carry, `out` what
its output ports gave in the last evaluation, `cfg` the parameters it was built with. `vars` and
`listing` are the host's (R74). -/
structure State where
  /-- The parameters (R6, R32); no step changes them (R23). -/
  cfg : Config
  /-- The values present on the input ports (R25). -/
  inp : Transaction
  /-- The values the output ports gave in the last evaluation (R26). -/
  out : Outputs
  /-- The harness variables `H` (R74). -/
  vars : Vars
  /-- The lines of the harness listing that are still to run, the next one first (R74). -/
  listing : List Line
deriving DecidableEq, Repr

/-- Why a run stops with a fault. The block has no fault (R32, R170): each of these is an error of the
harness listing, and that it ends the run is the model's form of it (DESIGN CHOICE, log entry 12). -/
inductive Fault where
  /-- A line reads a variable no earlier line assigned: "an error of the listing" (R31, R74). Raised by
  the harness when it forms a transaction. Safe: the model stops, the spec gives the line no effect. -/
  | unassignedVariable (n : Name)
  /-- A variable used as an index, start, length or n holds a value that is not below 2^`IDX_W`, so it
  is not representable on its port (R73). Raised by the harness when it forms a transaction. Safe:
  the model stops, the spec gives the line no effect (log entry 6). -/
  | indexTooWide (x : Word)
  /-- A line the assembler rejects stands in the listing (R73). Raised by the harness before it runs the
  line. Safe: the model stops, no listing the assembler made holds such a line. -/
  | rejectedLine
deriving DecidableEq, Repr

/-- Why an instruction has no meaning. -/
inductive Refusal where
  /-- The instruction of this mnemonic is not modelled. No arm of `exec` answers it: every row of the
  opcode table has its meaning. Safe. -/
  | notModelled (mnemonic : String)
deriving DecidableEq, Repr

/-- The machine before the host has driven anything. The block has no reset and no state to reset (R30,
R190), so every value here is either the spec's (`CHAR_ONE`, `H[ILL]` = 0 and no other variable, R74)
or a DESIGN CHOICE: `HAS_AUX` = 1 (log entry 1), every input port 0 (log entry 2), no listing (log entry
3). The outputs are `eval` of the inputs "from the first moment" (R30): BIT of index 0. -/
def State.reset : State where
  cfg := { hasAux := true, charOne := Config.asciiOne }
  inp := { cmd := 0#6, bf := 0#64, pos := 0#8, len := 0#8, val := 0#64 }
  out := { result := 1#64 }
  vars := [(Name.illegal, 0#64)]
  listing := []

end Sys2Proof.Machine
end

