-- ==== Sys2Proof/Machine/Operands.lean ====
section
/-! DEFINITION. The width-parameterized masking and shifting primitives every instruction is built
from, and the operands an instruction takes from the ports (spec 00_scope.md R9, R11;
40_primitives.md R90 to R99; 43_popcount_aux.md R140, R145). Shift counts, indices and lengths are
naturals, so every definition holds for every `IDX_W` (R6). -/

namespace Sys2Proof.Machine

/-- `trunc_N(x)`: the low N bits of `x` (R9, R93). -/
def trunc (n : Nat) (x : Word) : Word := (x.setWidth n).setWidth 64

/-- `not64(a)`: bitwise complement on 64 bits (R9). -/
def not64 (a : Word) : Word := ~~~a

/-- `shl64(x, s)`: left shift on 64 bits, 0 when `s` >= 64 (R9, R94, D11). -/
def shl64 (x : Word) (s : Nat) : Word := x <<< s

/-- `shr(x, s)`: logical right shift, 0 when `s` >= 64 (R9, R95, D11). -/
def shr (x : Word) (s : Nat) : Word := x >>> s

/-- The effective index `e = i mod 64`, for every operand width (R15, R96, D10). -/
def effectiveIndex (i : Nat) : Nat := i % Config.idxMod

/-- The bit-index calculator `Bit(i) = 2^(i mod 64)` (R96). -/
def bit (i : Nat) : Word := shl64 1#64 (effectiveIndex i)

/-- The mask generator: `2^n - 1` for n <= 63, `MASK_SAT` for n >= 64 (R97, D12). -/
def mask (n : Nat) : Word := if n < 64 then shl64 1#64 n - 1#64 else Config.maskSat

/-- The field mask `FM = shl64(Mask(len), pos)`, for a range that is not reduced (R99, R154). -/
def fieldMask (pos len : Nat) : Word := shl64 (mask len) pos

/-- `popcount_W(v)`: the number of k < W with `v[k]` = 1 (R9, R140). -/
def popcount (n : Nat) (v : Word) : Nat := (List.range n).countP (fun k => v.getLsbD k)

/-- The fallback loop of R145, which clears the lowest set bit each iteration and counts the
iterations, with fuel. No instruction uses it: the strategy is not observable (R144). -/
def kernighan : Nat → Word → Nat → Nat
  | 0, _, c => c
  | fuel + 1, v, c => if v = 0#64 then c else kernighan fuel (v &&& (v - 1#64)) (c + 1)

/-- A truth value as the number 0 or 1: the `? 1 : 0` of the pseudocode (R9). -/
def bitValue (b : Bool) : Word := if b then 1#64 else 0#64

/-- `bfW = trunc_W(bf)`: the W-bit operand, the low bits of port `bf` (R11, R91, D6). -/
def bfW (w : Width) (t : Transaction) : Word := trunc w.bits t.bf

/-- `Bit(pos)`: the one-hot mask of the index on port `pos` (R11, R96). -/
def posBit (t : Transaction) : Word := bit t.pos.toNat

/-- The field mask of the range on ports `pos` and `len` (R11, R99). -/
def field (t : Transaction) : Word := fieldMask t.pos.toNat t.len.toNat

end Sys2Proof.Machine
end

