-- ==== Sys2Proof/Machine/Flags.lean ====
section
/-! DEFINITION. The tests of the instructions and what the status outputs report
(spec 41_single_bit.md R114, R115; 42_parsebits_aux.md R130; 44_range.md R150, R155;
60_exceptions.md R172). -/

namespace Sys2Proof.Machine

/-- Whether the bit of the W-bit operand that `pos` names is 1: `(bfW & Bit(pos)) != 0` (R114). -/
def bitIsSet (w : Width) (t : Transaction) : Bool := (bfW w t &&& posBit t) != 0#64

/-- Whether the character on `val` is `'1'`: all 64 bits equal `CHAR_ONE` (R130, D20). -/
def charIsOne (cfg : Config) (t : Transaction) : Bool := t.val == cfg.charOne

/-- `OorRange(W, pos, len)`, with `pos + len` the exact sum (R155, D15). -/
def oorRange (width pos len : Nat) : Bool :=
  decide (pos ≥ width) || decide (len > 64) || decide (pos + len > width)

/-- The `oor` of a range command of width W, from the ports `pos` and `len` (R151 to R153). -/
def rangeOor (w : Width) (t : Transaction) : Bool := oorRange w.bits t.pos.toNat t.len.toNat

/-- The `oor` of MASK: `len >= 64` (R150, R172). -/
def maskOor (t : Transaction) : Bool := decide (t.len.toNat ≥ 64)

end Sys2Proof.Machine
end

