-- ==== Sys2Proof/Machine/Ops.lean ====
section
/-! DEFINITION. The shared operations of a step: driving the output ports, the reserved-command report
that stands in place of an exception (spec 30_encoding.md R70, 60_exceptions.md R170, R171), and the
harness's variable map (30_encoding.md R74). -/

namespace Sys2Proof.Machine

/-- The answer of `exec`. -/
abbrev Answer := Host.Outcome State Fault Refusal

/-- Drive all four output ports (R26). Nothing else of the state changes: the block mutates nothing
(R24, R28). -/
def drive (s : State) (o : Outputs) : State := { s with out := o }

/-- The outputs of a reserved command: `result` 0, `flag` 0, `oor` 0, `ill` 1 (R70, D16). -/
def reservedOutputs : Outputs := { ill := true }

/-- Answer a reserved command. The block raises no exception and has no trap (R70, R170, R176): this
report is all there is, no state is saved and control goes nowhere. -/
def reportReserved (s : State) : Answer := .next (drive s reservedOutputs)

/-- The outputs of an AUX command: its own when `HAS_AUX` = 1, else its opcode is reserved (R4, R69,
R70). -/
def auxOutputs (cfg : Config) (o : Outputs) : Outputs :=
  match cfg.hasAux with
  | true => o
  | false => reservedOutputs

/-- The order in which `Vars` holds the names: by character code, a shorter name before its
extensions. The order is the model's own (DESIGN CHOICE, log entry 12); it only fixes one list for each
finite map. -/
def Name.before : Name → Name → Bool
  | [], [] => false
  | [], _ :: _ => true
  | _ :: _, [] => false
  | a :: as, b :: bs => if a = b then Name.before as bs else decide (a.toNat < b.toNat)

/-- The canonical form of a variable map: names strictly rising. -/
def Vars.wf : Vars → Bool
  | [] => true
  | [_] => true
  | p :: q :: rest => Name.before p.1 q.1 && Vars.wf (q :: rest)

/-- `H[n]`, or nothing when no line has assigned `n` (R74, R31). -/
def Vars.get : Vars → Name → Option Word
  | [], _ => none
  | p :: rest, n => if p.1 = n then some p.2 else Vars.get rest n

/-- `H[n] <- x` (R74), keeping the canonical form. -/
def Vars.set : Vars → Name → Word → Vars
  | [], n, x => [(n, x)]
  | p :: rest, n, x =>
    if p.1 = n then (n, x) :: rest
    else if Name.before n p.1 then (n, x) :: p :: rest
    else p :: Vars.set rest n x

end Sys2Proof.Machine
end

