-- ==== Sys2Proof/Machine/Auxiliary.lean ====
section
/-! DEFINITION. The AUX instructions, present when `HAS_AUX` = 1 and reserved otherwise
(spec 00_scope.md R4; 42_parsebits_aux.md R130; 43_popcount_aux.md R141, R142). -/

namespace Sys2Proof.Machine

/-- ONES.W (R141): `result = popcount_W(bfW)`. -/
def execOnes (w : Width) (s : State) : Answer :=
  .next (drive s (auxOutputs s.cfg {
    result := BitVec.ofNat 64 (popcount w.bits (bfW w s.inp)) }))

/-- ZEROS.W (R142): `result = W - popcount_W(bfW)`. -/
def execZeros (w : Width) (s : State) : Answer :=
  .next (drive s (auxOutputs s.cfg {
    result := BitVec.ofNat 64 (w.bits - popcount w.bits (bfW w s.inp)) }))

/-- PARSESTEP.W (R130): shift the accumulator left by one and OR in 1 if all 64 bits of `val` are
`CHAR_ONE`, truncate to W. -/
def execParsestep (w : Width) (s : State) : Answer :=
  .next (drive s (auxOutputs s.cfg {
    result := trunc w.bits (shl64 (bfW w s.inp) 1 ||| bitValue (charIsOne s.cfg s.inp)) }))

end Sys2Proof.Machine
end

