-- ==== Sys2Proof/Machine/Range.lean ====
section
/-! DEFINITION. The range instructions (spec 44_range.md R150 to R156). `pos` and `len` are used
unreduced (R154), and `result` is the unchecked value whatever `oor` reports (R172). -/

namespace Sys2Proof.Machine

/-- MASK (R150): `result = Mask(len)`, 64 bits, `oor = (len >= 64)`; `w` is ignored (R67). -/
def execMask (_w : Width) (s : State) : Answer :=
  .next (drive s { result := mask s.inp.len.toNat, oor := maskOor s.inp })

/-- GETBITS.W (R151): `result = shr(bfW, pos) & Mask(len)`. -/
def execGetbits (w : Width) (s : State) : Answer :=
  .next (drive s {
    result := shr (bfW w s.inp) s.inp.pos.toNat &&& mask s.inp.len.toNat
    oor := rangeOor w s.inp })

/-- SETBITS.W (R152): clear the field with the inverted field mask, OR in the masked, shifted new
value, truncate to W. -/
def execSetbits (w : Width) (s : State) : Answer :=
  .next (drive s {
    result := trunc w.bits ((bfW w s.inp &&& not64 (field s.inp)) |||
      shl64 (s.inp.val &&& mask s.inp.len.toNat) s.inp.pos.toNat)
    oor := rangeOor w s.inp })

/-- CLRBITS.W (R153): clear the field with the inverted field mask, truncate to W. -/
def execClrbits (w : Width) (s : State) : Answer :=
  .next (drive s {
    result := trunc w.bits (bfW w s.inp &&& not64 (field s.inp))
    oor := rangeOor w s.inp })

end Sys2Proof.Machine
end

