-- ==== Sys2Proof/Machine/Reserved.lean ====
section
/-! DEFINITION. The two opcodes reserved in every configuration (spec 30_encoding.md R70). -/

namespace Sys2Proof.Machine

/-- Opcode 14: reserved for every `w` and every operand value (R70). -/
def execReserved14 (_w : Width) (s : State) : Answer := reportReserved s

/-- Opcode 15: reserved for every `w` and every operand value (R70). -/
def execReserved15 (_w : Width) (s : State) : Answer := reportReserved s

end Sys2Proof.Machine
end

