-- ==== Sys2Proof/Machine/SingleBit.lean ====
section
/-! DEFINITION. The single-bit instructions (spec 41_single_bit.md R110 to R117). -/

namespace Sys2Proof.Machine

/-- BIT (R110): `result = Bit(pos)`, 64 bits, never truncated; `w` is ignored (R67). -/
def execBit (_w : Width) (s : State) : Answer :=
  .next (drive s { result := posBit s.inp })

/-- SETBIT.W (R111): `result = trunc_W(bfW | Bit(pos))`. -/
def execSetbit (w : Width) (s : State) : Answer :=
  .next (drive s { result := trunc w.bits (bfW w s.inp ||| posBit s.inp) })

/-- CLRBIT.W (R112): `result = trunc_W(bfW & not64(Bit(pos)))`. -/
def execClrbit (w : Width) (s : State) : Answer :=
  .next (drive s { result := trunc w.bits (bfW w s.inp &&& not64 (posBit s.inp)) })

/-- TGLBIT.W (R113): `result = trunc_W(bfW ^ Bit(pos))`. -/
def execTglbit (w : Width) (s : State) : Answer :=
  .next (drive s { result := trunc w.bits (bfW w s.inp ^^^ posBit s.inp) })

/-- ISSET.W (R114): the predicate on `flag`, `result` 0 (D29). -/
def execIsset (w : Width) (s : State) : Answer :=
  .next (drive s { flag := bitIsSet w s.inp })

/-- ISNULL.W (R115): the complement of ISSET's `flag`, `result` 0. -/
def execIsnull (w : Width) (s : State) : Answer :=
  .next (drive s { flag := !bitIsSet w s.inp })

/-- GETBIT.W (R116): the bit as the number 0 or 1 on `result`, `flag` 0 (D29). -/
def execGetbit (w : Width) (s : State) : Answer :=
  .next (drive s { result := bitValue (bitIsSet w s.inp) })

end Sys2Proof.Machine
end

