-- ==== Sys2Proof/Machine/Dispatch.lean ====
section
/-! DEFINITION. The one dispatch from an instruction to its meaning (spec 30_encoding.md R66). -/

namespace Sys2Proof.Machine

def exec (i : Instr) (s : State) : Host.Outcome State Fault Refusal :=
  match i with
  | .bit w => Sys2Proof.Machine.execBit w s
  | .setbit w => Sys2Proof.Machine.execSetbit w s
  | .clrbit w => Sys2Proof.Machine.execClrbit w s
  | .tglbit w => Sys2Proof.Machine.execTglbit w s
  | .isset w => Sys2Proof.Machine.execIsset w s
  | .isnull w => Sys2Proof.Machine.execIsnull w s
  | .getbit w => Sys2Proof.Machine.execGetbit w s
  | .mask w => Sys2Proof.Machine.execMask w s
  | .getbits w => Sys2Proof.Machine.execGetbits w s
  | .setbits w => Sys2Proof.Machine.execSetbits w s
  | .clrbits w => Sys2Proof.Machine.execClrbits w s
  | .ones w => Sys2Proof.Machine.execOnes w s
  | .zeros w => Sys2Proof.Machine.execZeros w s
  | .parsestep w => Sys2Proof.Machine.execParsestep w s
  | .reserved14 w => Sys2Proof.Machine.execReserved14 w s
  | .reserved15 w => Sys2Proof.Machine.execReserved15 w s

end Sys2Proof.Machine
end

