-- ==== Sys2Proof/Machine/Evaluate.lean ====
section
/-! DEFINITION. Command evaluation: the block as one total function of its input ports
(spec 10_state.md R24), the ParseBits fold over it (42_parsebits_aux.md R132), and which ports a command
reads (30_encoding.md R65, R68). -/

namespace Sys2Proof.Machine

/-- The instruction the block is asked to evaluate: the command on port `cmd` (R21, R51). The block
fetches nothing. -/
def fetch (s : State) : Instr := decodeCommand s.inp.cmd

/-- A state with these parameters and these port values, and nothing else in it. -/
def present (cfg : Config) (t : Transaction) : State where
  cfg := cfg
  inp := t
  out := {}
  vars := []
  listing := []

/-- The outputs of an answer. `exec` always answers a next state (R12, R32); the other two outcomes
get the reserved command's outputs. -/
def answerOutputs : Answer → Outputs
  | .next s => s.out
  | .fault _ => reservedOutputs
  | .refused _ => reservedOutputs

/-- `eval` (R24): the four outputs of one command evaluation, for a block with parameters `cfg`. -/
def eval (cfg : Config) (t : Transaction) : Outputs :=
  answerOutputs (exec (decodeCommand t.cmd) (present cfg t))

/-- The transaction of an instruction with its operands: the five-tuple of R76. -/
def transaction (i : Instr) (bf : Word) (pos len : Index) (val : Word) : Transaction where
  cmd := encodeCommand i
  bf := bf
  pos := pos
  len := len
  val := val

/-- `PARSESTEP.W(a, c).result`. -/
def parseStep (cfg : Config) (w : Width) (a c : Word) : Word :=
  (eval cfg (transaction (.parsestep w) a 0#8 0#8 c)).result

/-- PARSEBITS.W, the source's ParseBits: the fold of PARSESTEP over the characters, leftmost first,
from accumulator 0 (R132). The characters and their number are the host's to supply (R134). -/
def parseBits (cfg : Config) (w : Width) (chars : List Word) : Word :=
  chars.foldl (parseStep cfg w) 0#64

/-- The ports an instruction reads (R65). -/
structure PortsRead where
  bf : Bool := false
  pos : Bool := false
  len : Bool := false
  val : Bool := false
deriving DecidableEq, Repr

/-- The column "ports read" of R65; a reserved opcode reads none (R68). -/
def portsRead : Instr → PortsRead
  | .bit _ => { pos := true }
  | .setbit _ => { bf := true, pos := true }
  | .clrbit _ => { bf := true, pos := true }
  | .tglbit _ => { bf := true, pos := true }
  | .isset _ => { bf := true, pos := true }
  | .isnull _ => { bf := true, pos := true }
  | .getbit _ => { bf := true, pos := true }
  | .mask _ => { len := true }
  | .getbits _ => { bf := true, pos := true, len := true }
  | .setbits _ => { bf := true, pos := true, len := true, val := true }
  | .clrbits _ => { bf := true, pos := true, len := true }
  | .ones _ => { bf := true }
  | .zeros _ => { bf := true }
  | .parsestep _ => { bf := true, val := true }
  | .reserved14 _ => {}
  | .reserved15 _ => {}

/-- The canonical form of a transaction (R67, R68, R77): every port the command does not read at 0, and
`w` = 3 where it has no role. -/
def canonical (t : Transaction) : Transaction :=
  let i := decodeCommand t.cmd
  let p := portsRead i
  transaction (canonicalInstr i) (if p.bf then t.bf else 0#64) (if p.pos then t.pos else 0#8)
    (if p.len then t.len else 0#8) (if p.val then t.val else 0#64)

end Sys2Proof.Machine
end

