-- ==== Sys2Proof/WellFormed.lean ====
section
/-! DEFINITION. Which commands select an operation in a configuration (spec 30_encoding.md R69), and
which listing lines the assembler accepts (R73, R74). -/

namespace Sys2Proof

/-- The operation exists in this configuration (R69 steps 2 to 4): CORE always, AUX when `HAS_AUX` is
1, the reserved opcodes never. Every command is answered all the same; this is what `ill` reports
(R70). -/
def Instr.selects (cfg : Config) : Instr → Bool
  | .ones _ | .zeros _ | .parsestep _ => cfg.hasAux
  | .reserved14 _ | .reserved15 _ => false
  | .bit _ | .setbit _ | .clrbit _ | .tglbit _ | .isset _ | .isnull _ | .getbit _ | .mask _
  | .getbits _ | .setbits _ | .clrbits _ => true

namespace Machine

/-- A letter of the assembler's names (R73; PRESUMED the letters A to Z and a to z, log entry 10). -/
def isLetter (c : Char) : Bool :=
  (65 ≤ c.toNat && c.toNat ≤ 90) || (97 ≤ c.toNat && c.toNat ≤ 122)

/-- A decimal digit (R73). -/
def isDigit (c : Char) : Bool := 48 ≤ c.toNat && c.toNat ≤ 57

/-- A letter followed by letters, digits or `_` (R73). -/
def Name.wellFormed : Name → Bool
  | [] => false
  | c :: cs => isLetter c && cs.all (fun d => isLetter d || isDigit d || d == '_')

/-- The two names R74 reserves, and `ILL`, which only the harness assigns. -/
def Name.reserved (n : Name) : Bool :=
  n == Name.predicate || n == Name.outOfRange || n == Name.illegal

/-- A destination operand is a variable, and none of the reserved names (R73, R74; DEDUCED, log entry
11). -/
def Name.destination (n : Name) : Bool := n.wellFormed && !n.reserved

/-- An operand for a 64-bit port: any literal, or a well-formed variable name (R73). -/
def Operand.wellFormed : Operand → Bool
  | .var n => n.wellFormed
  | .lit _ => true

/-- An index, start, length or n operand: a literal must be below 2^`IDX_W` = 256, "the assembler
rejects a larger literal" (R73). -/
def Operand.indexWellFormed : Operand → Bool
  | .var n => n.wellFormed
  | .lit x => x.toNat < 2 ^ Config.idxW

/-- The assembler accepts the operands of this command line (R73). -/
def CommandLine.wellFormed : CommandLine → Bool
  | .bit d i => d.destination && i.indexWellFormed
  | .setbit _ v i | .clrbit _ v i | .tglbit _ v i => v.destination && i.indexWellFormed
  | .isset _ v i | .isnull _ v i => v.wellFormed && i.indexWellFormed
  | .getbit _ d v i => d.destination && v.wellFormed && i.indexWellFormed
  | .mask d n => d.destination && n.indexWellFormed
  | .getbits _ d v start len =>
    d.destination && v.wellFormed && start.indexWellFormed && len.indexWellFormed
  | .setbits _ v start len val =>
    v.destination && start.indexWellFormed && len.indexWellFormed && val.wellFormed
  | .clrbits _ v start len => v.destination && start.indexWellFormed && len.indexWellFormed
  | .ones _ d v | .zeros _ d v => d.destination && v.wellFormed
  | .parsestep _ v c => v.destination && c.wellFormed

/-- The assembler accepts this line (R73, R74). -/
def Line.wellFormed : Line → Bool
  | .assign v _ => v.destination
  | .command c => c.wellFormed

end Machine

end Sys2Proof
end

