-- ==== Sys2Proof/Machine/Harness.lean ====
section
/-! DEFINITION. The test harness, the spec's model of the host: how a line forms its transaction from
the variables, and what it does with the outputs (spec 30_encoding.md R73, R74; 10_state.md R28).
Every function here is the host's, none is the block's. -/

namespace Sys2Proof.Machine

/-- The value of an operand: `H[name]`, or the literal (R73). Reading a variable no line assigned is an
error of the listing (R31, R74). -/
def operandValue (h : Vars) : Operand → Except Fault Word
  | .lit x => .ok x
  | .var n =>
    match h.get n with
    | some x => .ok x
    | none => .error (.unassignedVariable n)

/-- The value of an operand for port `pos` or `len`, which must be below 2^`IDX_W` (R73). -/
def indexValue (h : Vars) (o : Operand) : Except Fault Index :=
  match operandValue h o with
  | .error f => .error f
  | .ok x =>
    if x.toNat < 2 ^ Config.idxW then .ok (x.setWidth 8) else .error (.indexTooWide x)

/-- The canonical transaction of an instruction that reads `bf`, `pos`, `len` and `val` from these
operands, with the command the assembler emits (R67, R68, R73). The operands are read in this order. -/
def formTransaction (h : Vars) (i : Instr) (bf pos len val : Operand) : Except Fault Transaction :=
  match operandValue h bf, indexValue h pos, indexValue h len, operandValue h val with
  | .ok b, .ok p, .ok l, .ok v => .ok (transaction (canonicalInstr i) b p l v)
  | .error f, _, _, _ => .error f
  | .ok _, .error f, _, _ => .error f
  | .ok _, .ok _, .error f, _ => .error f
  | .ok _, .ok _, .ok _, .error f => .error f

/-- A port the line does not mention: 0 (R68, R73). -/
def unusedPort : Operand := .lit 0#64

/-- The transaction column of R73's table. -/
def lineTransaction (h : Vars) : CommandLine → Except Fault Transaction
  | .bit _ i => formTransaction h (.bit .w64) unusedPort i unusedPort unusedPort
  | .setbit w v i => formTransaction h (.setbit w) (.var v) i unusedPort unusedPort
  | .clrbit w v i => formTransaction h (.clrbit w) (.var v) i unusedPort unusedPort
  | .tglbit w v i => formTransaction h (.tglbit w) (.var v) i unusedPort unusedPort
  | .isset w v i => formTransaction h (.isset w) v i unusedPort unusedPort
  | .isnull w v i => formTransaction h (.isnull w) v i unusedPort unusedPort
  | .getbit w _ v i => formTransaction h (.getbit w) v i unusedPort unusedPort
  | .mask _ n => formTransaction h (.mask .w64) unusedPort unusedPort n unusedPort
  | .getbits w _ v start len => formTransaction h (.getbits w) v start len unusedPort
  | .setbits w v start len val => formTransaction h (.setbits w) (.var v) start len val
  | .clrbits w v start len => formTransaction h (.clrbits w) (.var v) start len unusedPort
  | .ones w _ v => formTransaction h (.ones w) v unusedPort unusedPort unusedPort
  | .zeros w _ v => formTransaction h (.zeros w) v unusedPort unusedPort unusedPort
  | .parsestep w v c => formTransaction h (.parsestep w) (.var v) unusedPort unusedPort c

/-- `H[d] <- result`. -/
def storeResult (h : Vars) (d : Name) (o : Outputs) : Vars := h.set d o.result

/-- `H[F] <- flag`. -/
def storeFlag (h : Vars) (o : Outputs) : Vars := h.set Name.predicate (bitValue o.flag)

/-- `H[d] <- result`, `H[OOR] <- oor`. -/
def storeRange (h : Vars) (d : Name) (o : Outputs) : Vars :=
  (storeResult h d o).set Name.outOfRange (bitValue o.oor)

/-- The harness effect column of R73's table: the write-back of R28. -/
def lineEffect (h : Vars) (o : Outputs) : CommandLine → Vars
  | .bit d _ => storeResult h d o
  | .setbit _ v _ => storeResult h v o
  | .clrbit _ v _ => storeResult h v o
  | .tglbit _ v _ => storeResult h v o
  | .isset _ _ _ => storeFlag h o
  | .isnull _ _ _ => storeFlag h o
  | .getbit _ d _ _ => storeResult h d o
  | .mask d _ => storeRange h d o
  | .getbits _ d _ _ _ => storeRange h d o
  | .setbits _ v _ _ _ => storeRange h v o
  | .clrbits _ v _ _ => storeRange h v o
  | .ones _ d _ => storeResult h d o
  | .zeros _ d _ => storeResult h d o
  | .parsestep _ v _ => storeResult h v o

/-- Record `H[ILL] <- 1` when the evaluation gave `ill` = 1; it is never cleared (R74). -/
def recordIllegal (h : Vars) (o : Outputs) : Vars :=
  if o.ill then h.set Name.illegal 1#64 else h

/-- What the harness does once the block has answered: the write-back, into the state the evaluation
left. -/
def writeBack (c : CommandLine) : Answer → Answer
  | .next s => .next { s with vars := lineEffect (recordIllegal s.vars s.out) s.out c }
  | .fault f => .fault f
  | .refused r => .refused r

/-- One line of a listing (R74): form the transaction, evaluate once, perform the harness effect. -/
def runLine (l : Line) (s : State) : Answer :=
  if l.wellFormed then
    match l with
    | .assign v x => .next { s with vars := s.vars.set v x }
    | .command c =>
      match lineTransaction s.vars c with
      | .error f => .fault f
      | .ok t => writeBack c (exec (decodeCommand t.cmd) { s with inp := t })
  else .fault .rejectedLine

end Sys2Proof.Machine
end

