-- ==== Sys2Proof/Machine/Step.lean ====
section
/-! DEFINITION. One step of the machine: one command evaluation of the values on the ports
(spec 00_scope.md R13, 10_state.md R24), or, while the harness has a listing to run, its next line
(30_encoding.md R74). -/

namespace Sys2Proof.Machine

/-- With no listing, the block evaluates what its ports carry. With a listing, the harness runs the
first line, and the rest of the listing remains. -/
def step (s : State) : Host.Outcome State Fault Refusal :=
  match s.listing with
  | [] => exec (fetch s) s
  | l :: rest => runLine l { s with listing := rest }

/-- `s` with the command of this opcode-table word on port `cmd`, and no listing before it, so that the
next step evaluates it with the operands on the other ports (log entry 3). -/
def State.withFetchWord (s : State) (_nbits w : Nat) : State :=
  { s with inp := { s.inp with cmd := BitVec.ofNat 6 w }, listing := [] }

end Sys2Proof.Machine
end

