-- ==== Sys2Proof/Machine/Assembler.lean ====
section
/-! DEFINITION. The assembler and the disassembler (spec 30_encoding.md R73, R75, R77): source text to
the lines of a listing, and a transaction back to its canonical spelling. Host side, not hardware. -/

namespace Sys2Proof.Machine

/-- The code of a character, the value PARSESTEP sees for the literal `'c'` (R73; PRESUMED Unicode,
which agrees with ASCII, log entry 7). -/
def charCode (c : Char) : Word := BitVec.ofNat 64 c.toNat

/-- `PARSEBITS.W v, "c1...cn"`: `.let v = 0` and one PARSESTEP line per character, leftmost first
(R75). -/
def expandParsebits (w : Width) (v : Name) (str : List Char) : List Line :=
  .assign v 0#64 :: str.map (fun c => .command (.parsestep w v (.lit (charCode c))))

/-- `NULLBIT.W v, i`: the alias of `CLRBIT.W v, i` (R75, R112). -/
def expandNullbit (w : Width) (v : Name) (i : Operand) : CommandLine := .clrbit w v i

/-- A word of a source line. -/
inductive Token where
  /-- A mnemonic, name, number or directive: letters, digits, `_` and `.`. -/
  | word (cs : List Char)
  | comma
  | equals
  /-- A character literal `'c'`. -/
  | chr (c : Char)
  /-- A string literal. -/
  | str (cs : List Char)
deriving DecidableEq, Repr

/-- Where the lexer stands: between words, inside one (its characters in reverse), or after `;`. -/
inductive LexMode where
  | plain
  | word (acc : List Char)
  | str (acc : List Char)
  | openChr
  | fullChr (c : Char)
  | comment
deriving DecidableEq, Repr

/-- A character of a word. -/
def isWordChar (c : Char) : Bool := isLetter c || isDigit c || c == '_' || c == '.'

/-- What a character means between words: the token it is, if it is one, and where the lexer then
stands. -/
def startToken (c : Char) : Option (List Token × LexMode) :=
  if c == ' ' || c == '\t' then some ([], .plain)
  else if c == ';' then some ([], .comment)
  else if c == ',' then some ([.comma], .plain)
  else if c == '=' then some ([.equals], .plain)
  else if c == '"' then some ([], .str [])
  else if c == '\'' then some ([], .openChr)
  else if isWordChar c then some ([], .word [c])
  else none

/-- The tokens of one source line; `;` starts a comment (R73). Nothing where the line cannot be read.
What `;`, quotes and `\` mean inside `'...'` and `"..."` the spec leaves open (DESIGN CHOICE, log entry
10): there `;` is a character like any other and starts no comment, `\` escapes nothing, a string ends
at the first double quote (so it cannot hold one), and a character literal is exactly one character, any
one, between two single quotes. -/
def lex : List Char → LexMode → Option (List Token)
  | [], .plain => some []
  | [], .word acc => some [.word acc.reverse]
  | [], .comment => some []
  | [], .str _ => none
  | [], .openChr => none
  | [], .fullChr _ => none
  | _ :: cs, .comment => lex cs .comment
  | c :: cs, .plain =>
    match startToken c with
    | none => none
    | some (ts, m) => (lex cs m).map (ts ++ ·)
  | c :: cs, .word acc =>
    if isWordChar c then lex cs (.word (c :: acc))
    else match startToken c with
      | none => none
      | some (ts, m) => (lex cs m).map (fun rest => .word acc.reverse :: (ts ++ rest))
  | c :: cs, .str acc =>
    if c == '"' then (lex cs .plain).map (.str acc.reverse :: ·) else lex cs (.str (c :: acc))
  | c :: cs, .openChr => lex cs (.fullChr c)
  | c :: cs, .fullChr x => if c == '\'' then (lex cs .plain).map (.chr x :: ·) else none

/-- The value of a digit in a base of at most 16. -/
def digitValue (base : Nat) (c : Char) : Option Nat :=
  let d :=
    if isDigit c then c.toNat - 48
    else if 65 ≤ c.toNat && c.toNat ≤ 70 then c.toNat - 55
    else if 97 ≤ c.toNat && c.toNat ≤ 102 then c.toNat - 87
    else 16
  if d < base then some d else none

/-- A non-empty run of digits, most significant first. -/
def digitsValue (base : Nat) : List Char → Option Nat
  | [] => none
  | cs => cs.foldl (fun acc c => acc.bind fun n => (digitValue base c).map (base * n + ·)) (some 0)

/-- An unsigned integer literal: decimal, `0x` hexadecimal or `0b` binary (R73). -/
def numberValue : List Char → Option Nat
  | '0' :: 'x' :: cs => digitsValue 16 cs
  | '0' :: 'b' :: cs => digitsValue 2 cs
  | cs => digitsValue 10 cs

/-- A literal as a 64-bit value; one that does not fit is rejected. -/
def literalValue (cs : List Char) : Option Word :=
  match numberValue cs with
  | some n => if n < 2 ^ 64 then some (BitVec.ofNat 64 n) else none
  | none => none

/-- An operand: a literal if the word begins with a digit, else a variable name (R73). -/
def tokenOperand : Token → Option Operand
  | .word [] => none
  | .word (c :: cs) =>
    if isDigit c then (literalValue (c :: cs)).map .lit
    else if Name.wellFormed (c :: cs) then some (.var (c :: cs)) else none
  | _ => none

/-- A character operand of PARSESTEP: also a character literal (R73). -/
def tokenCharacter : Token → Option Operand
  | .chr c => some (.lit (charCode c))
  | t => tokenOperand t

/-- A destination operand: "must be a variable" (R73). -/
def tokenName (t : Token) : Option Name :=
  match tokenOperand t with
  | some (.var n) => some n
  | _ => none

/-- The operand tokens of a line, separated by commas. -/
def operandTokens : List Token → Option (List Token)
  | [] => some []
  | [t] => if t = .comma then none else some [t]
  | t :: .comma :: u :: rest =>
    if t = .comma then none else (operandTokens (u :: rest)).map (t :: ·)
  | _ :: _ => none

/-- The mnemonic and the suffix after its `.`, if it has one. -/
def splitSuffix : List Char → List Char × Option (List Char)
  | [] => ([], none)
  | c :: cs => if c = '.' then ([], some cs) else (c :: (splitSuffix cs).1, (splitSuffix cs).2)

/-- The width suffixes (R62). -/
def suffixWidth : List Char → Option Width
  | ['8'] => some .w8
  | ['1', '6'] => some .w16
  | ['3', '2'] => some .w32
  | ['6', '4'] => some .w64
  | _ => none

/-- The lines without a width: "mandatory on every mnemonic except BIT and MASK, which take none"
(R73). -/
def widthlessLine (m : List Char) (ops : List Token) : Option (List Line) :=
  match ops with
  | [d, x] =>
    match tokenName d, tokenOperand x with
    | some d, some x =>
      if m = "BIT".toList then some [.command (.bit d x)]
      else if m = "MASK".toList then some [.command (.mask d x)]
      else none
    | _, _ => none
  | _ => none

/-- The lines with a width and two operands, the first a destination variable. -/
def inPlaceLine (m : List Char) (w : Width) (v : Name) (x : Token) : Option (List Line) :=
  if m = "SETBIT".toList then (tokenOperand x).map fun i => [.command (.setbit w v i)]
  else if m = "CLRBIT".toList then (tokenOperand x).map fun i => [.command (.clrbit w v i)]
  else if m = "NULLBIT".toList then (tokenOperand x).map fun i => [.command (expandNullbit w v i)]
  else if m = "TGLBIT".toList then (tokenOperand x).map fun i => [.command (.tglbit w v i)]
  else if m = "ONES".toList then (tokenOperand x).map fun y => [.command (.ones w v y)]
  else if m = "ZEROS".toList then (tokenOperand x).map fun y => [.command (.zeros w v y)]
  else if m = "PARSESTEP".toList then (tokenCharacter x).map fun c => [.command (.parsestep w v c)]
  else if m = "PARSEBITS".toList then
    match x with
    | .str cs => some (expandParsebits w v cs)
    | _ => none
  else none

/-- The predicates, whose two operands are both sources. -/
def predicateLine (m : List Char) (w : Width) (v i : Operand) : Option (List Line) :=
  if m = "ISSET".toList then some [.command (.isset w v i)]
  else if m = "ISNULL".toList then some [.command (.isnull w v i)]
  else none

/-- A line with a width, by its number of operands. -/
def widthLine (m : List Char) (w : Width) : List Token → Option (List Line)
  | [a, b] =>
    match tokenOperand a, tokenOperand b with
    | some v, some i =>
      match predicateLine m w v i with
      | some ls => some ls
      | none => (tokenName a).bind fun v => inPlaceLine m w v b
    | _, _ => (tokenName a).bind fun v => inPlaceLine m w v b
  | [a, b, c] =>
    match tokenName a, tokenOperand b, tokenOperand c with
    | some d, some x, some y =>
      if m = "GETBIT".toList then some [.command (.getbit w d x y)]
      else if m = "CLRBITS".toList then some [.command (.clrbits w d x y)]
      else none
    | _, _, _ => none
  | [a, b, c, e] =>
    match tokenName a, tokenOperand b, tokenOperand c, tokenOperand e with
    | some d, some x, some y, some z =>
      if m = "GETBITS".toList then some [.command (.getbits w d x y z)]
      else if m = "SETBITS".toList then some [.command (.setbits w d x y z)]
      else none
    | _, _, _, _ => none
  | _ => none

/-- The lines of a tokenized source line, before the checks of WellFormed. -/
def tokenLines : List Token → Option (List Line)
  | [] => some []
  | [.word m, .word v, .equals, .word x] =>
    if m = ".let".toList then
      match tokenName (.word v), literalValue x with
      | some v, some x => some [.assign v x]
      | _, _ => none
    else none
  | .word m :: ts =>
    match splitSuffix m, operandTokens ts with
    | (m, none), some ops => widthlessLine m ops
    | (m, some s), some ops => (suffixWidth s).bind fun w => widthLine m w ops
    | _, none => none
  | _ => none

/-- Assemble one source line: the lines it stands for (none for a blank line or a comment, several for
PARSEBITS), or nothing where the assembler rejects it (R73, R75). -/
def assembleLine (text : List Char) : Option (List Line) :=
  match lex text .plain with
  | none => none
  | some ts =>
    match tokenLines ts with
    | none => none
    | some ls => if ls.all Line.wellFormed then some ls else none

/-- Assemble a listing, one source line after another (R73, R74). -/
def assemble : List (List Char) → Option (List Line)
  | [] => some []
  | text :: rest =>
    match assembleLine text, assemble rest with
    | some ls, some more => some (ls ++ more)
    | _, _ => none

/-- The command line a disassembler prints for a transaction (R77), with `d` for the destination of a
command that returns a new value and `v` for the bitfield variable. An index operand is the literal on
its port. A reserved opcode has no assembler spelling (R73). -/
def disassemble (d v : Name) (t : Transaction) : Option CommandLine :=
  let pos : Operand := .lit (t.pos.setWidth 64)
  let len : Operand := .lit (t.len.setWidth 64)
  match decodeCommand t.cmd with
  | .bit _ => some (.bit d pos)
  | .setbit w => some (.setbit w v pos)
  | .clrbit w => some (.clrbit w v pos)
  | .tglbit w => some (.tglbit w v pos)
  | .isset w => some (.isset w (.var v) pos)
  | .isnull w => some (.isnull w (.var v) pos)
  | .getbit w => some (.getbit w d (.var v) pos)
  | .mask _ => some (.mask d len)
  | .getbits w => some (.getbits w d (.var v) pos len)
  | .setbits w => some (.setbits w v pos len (.lit t.val))
  | .clrbits w => some (.clrbits w v pos len)
  | .ones w => some (.ones w d (.var v))
  | .zeros w => some (.zeros w d (.var v))
  | .parsestep w => some (.parsestep w v (.lit t.val))
  | .reserved14 _ => none
  | .reserved15 _ => none

end Sys2Proof.Machine
end

