-- ==== Sys2Proof/Safety.lean ====
section
/-! DEFINITION. The terms the claims use: the classes of a range (spec 44_range.md R156), the
evaluations R175 calls a fault of the host program, the R9 primitives on naturals, the answers of
a whole evaluation written bit by bit apart from the meanings, and the invariant of a step. -/

namespace Sys2Proof.Safety

open Sys2Proof.Machine

/-- The classes of R156. They are not exclusive: a range can be in F and G. -/
inductive RangeClass where
  /-- A: in range. -/
  | inRange
  /-- B: the whole 64-bit word. -/
  | wholeWord
  /-- C for GETBITS, D for SETBITS and CLRBITS: the range hangs over the operand's top. -/
  | overhang
  /-- E: `len` = 64 outside class B. -/
  | length64
  /-- F: the start lies outside the operand. -/
  | startOutside
  /-- G: the length is above 64. -/
  | lengthAbove64
deriving DecidableEq, Repr

/-- The condition column of R156. -/
def RangeClass.condition (width pos len : Nat) : RangeClass → Bool
  | .inRange => decide (pos < width) && decide (pos + len ≤ width) && decide (len ≤ 63)
  | .wholeWord => decide (width = 64) && decide (pos = 0) && decide (len = 64)
  | .overhang => decide (pos < width) && decide (width < pos + len) && decide (len ≤ 63)
  | .length64 => decide (pos < width) && decide (len = 64) && (decide (0 < pos) || decide (width < 64))
  | .startOutside => decide (width ≤ pos)
  | .lengthAbove64 => decide (64 < len)

/-- A range is classified by at least one class of R156. -/
def RangeClass.all : List RangeClass :=
  [.inRange, .wholeWord, .overhang, .length64, .startOutside, .lengthAbove64]

/-- The evaluations a conservative model may treat as a fault of the host program (R175): SETBITS and
CLRBITS, or GETBITS outside class C, with `oor` = 1; MASK with `len` >= 64; any with `ill` = 1. The
block computes their values all the same. -/
def leavesContract (cfg : Config) (t : Transaction) : Bool :=
  let i := decodeCommand t.cmd
  let p := t.pos.toNat
  let l := t.len.toNat
  match i with
  | .mask _ => decide (64 ≤ l)
  | .getbits w =>
    RangeClass.condition w.bits p l .length64 || RangeClass.condition w.bits p l .startOutside
      || RangeClass.condition w.bits p l .lengthAbove64
  | .setbits w | .clrbits w =>
    RangeClass.condition w.bits p l .overhang || RangeClass.condition w.bits p l .length64
      || RangeClass.condition w.bits p l .startOutside
      || RangeClass.condition w.bits p l .lengthAbove64
  | _ => !i.selects cfg

/-- `trunc_N(x) = x mod 2^N` on naturals (R9). -/
def natTrunc (n x : Nat) : Nat := x % 2 ^ n

/-- `Bit(i) = 2^(i mod 64)` on naturals (R9). -/
def natBit (i : Nat) : Nat := 2 ^ (i % 64)

/-- `Mask(n)` on naturals (R9). -/
def natMask (n : Nat) : Nat := if n ≤ 63 then 2 ^ n - 1 else 2 ^ 64 - 1

/-- `shl64(x, s) = (x * 2^s) mod 2^64` on naturals (R9). -/
def natShl64 (x s : Nat) : Nat := (x * 2 ^ s) % 2 ^ 64

/-- `shr(x, s) = floor(x / 2^s)` on naturals (R9). -/
def natShr (x s : Nat) : Nat := x / 2 ^ s

/-- `not64(a) = (2^64 - 1) - a` on naturals (R9). -/
def natNot64 (a : Nat) : Nat := (2 ^ 64 - 1) - a

/-- `OorRange(W, pos, len)` on naturals (R155). -/
def natOor (width pos len : Nat) : Prop := pos ≥ width ∨ len > 64 ∨ pos + len > width

/-- One command evaluation with the operands as they stand on the ports. -/
def command (cfg : Config) (i : Instr) (bf : Word) (pos len : Index) (val : Word) : Outputs :=
  eval cfg (transaction i bf pos len val)

/-- The seven single-bit instructions of one width (41_single_bit.md). -/
def singleBit (w : Width) : List Instr :=
  [.bit w, .setbit w, .clrbit w, .tglbit w, .isset w, .isnull w, .getbit w]

/-- The six in-place instructions of one width (R15, R92). -/
def inPlace (w : Width) : List Instr :=
  [.setbit w, .clrbit w, .tglbit w, .setbits w, .clrbits w, .parsestep w]

/-- The variable a command line writes besides the reserved names (R73). -/
def lineDestination : CommandLine → Option Name
  | .bit d _ => some d
  | .setbit _ v _ | .clrbit _ v _ | .tglbit _ v _ => some v
  | .isset _ _ _ | .isnull _ _ _ => none
  | .getbit _ d _ _ => some d
  | .mask d _ => some d
  | .getbits _ d _ _ _ => some d
  | .setbits _ v _ _ _ => some v
  | .clrbits _ v _ _ => some v
  | .ones _ d _ | .zeros _ d _ => some d
  | .parsestep _ v _ => some v

/-- The lines that record a predicate's outcome in `H[F]` (R73). -/
def lineTests : CommandLine → Bool
  | .isset _ _ _ | .isnull _ _ _ => true
  | _ => false

/-- The lines that record `oor` in `H[OOR]` (R73). -/
def lineReportsRange : CommandLine → Bool
  | .mask _ _ | .getbits _ _ _ _ _ | .setbits _ _ _ _ _ | .clrbits _ _ _ _ => true
  | _ => false

/-- The number of bits that are 1 among the W low bits, by recursion on W (R140). -/
def onesBelow : Nat → Word → Nat
  | 0, _ => 0
  | n + 1, v => onesBelow n v + (if v.getLsbD n then 1 else 0)

/-- Bit k of `result`, from the "Bitwise" sentences of R110 to R116, R130, R150 to R153 and R70. The
counts of ONES and ZEROS are numbers, their bits are those of the number (R141, R142). -/
def resultBit (cfg : Config) (i : Instr) (t : Transaction) (k : Nat) : Bool :=
  let e := t.pos.toNat % 64
  let p := t.pos.toNat
  let l := t.len.toNat
  let inField := decide (p ≤ k) && decide (k < p + l)
  match i with
  | .bit _ => decide (k = e)
  | .setbit w => decide (k < w.bits) && (decide (k = e) || t.bf.getLsbD k)
  | .clrbit w => decide (k < w.bits) && (!decide (k = e) && t.bf.getLsbD k)
  | .tglbit w => decide (k < w.bits) && (decide (k = e) ^^ t.bf.getLsbD k)
  | .isset _ => false
  | .isnull _ => false
  | .getbit w => decide (k = 0) && (decide (e < w.bits) && t.bf.getLsbD e)
  | .mask _ => decide (k < l)
  | .getbits w => decide (k < l) && decide (p + k < w.bits) && t.bf.getLsbD (p + k)
  | .setbits w =>
    decide (k < w.bits) && (if inField then t.val.getLsbD (k - p) else t.bf.getLsbD k)
  | .clrbits w => decide (k < w.bits) && (!inField && t.bf.getLsbD k)
  | .ones w => cfg.hasAux && (onesBelow w.bits t.bf).testBit k
  | .zeros w => cfg.hasAux && (w.bits - onesBelow w.bits t.bf).testBit k
  | .parsestep w =>
    cfg.hasAux && decide (k < w.bits) &&
      (if k = 0 then decide (t.val = cfg.charOne) else t.bf.getLsbD (k - 1))
  | .reserved14 _ => false
  | .reserved15 _ => false

/-- The status output `flag` (R114, R115): bit e of the W-bit operand, or its complement. -/
def flagBit (i : Instr) (t : Transaction) : Bool :=
  let e := t.pos.toNat % 64
  match i with
  | .isset w => decide (e < w.bits) && t.bf.getLsbD e
  | .isnull w => !(decide (e < w.bits) && t.bf.getLsbD e)
  | _ => false

/-- The status output `oor` (R150, and the short form R155 gives for the range commands). -/
def oorBit (i : Instr) (t : Transaction) : Bool :=
  let p := t.pos.toNat
  let l := t.len.toNat
  match i with
  | .mask _ => decide (64 ≤ l)
  | .getbits w | .setbits w | .clrbits w =>
    decide (w.bits < p + l) || (decide (p = w.bits) && decide (l = 0))
  | _ => false

/-- The outputs `o` are what the block drives for the inputs `t`, said bit by bit, apart from the
meanings of `exec`. -/
def Answers (cfg : Config) (t : Transaction) (o : Outputs) : Prop :=
  (∀ k, k < 64 → o.result.getLsbD k = resultBit cfg (decodeCommand t.cmd) t k) ∧
  o.flag = flagBit (decodeCommand t.cmd) t ∧
  o.oor = oorBit (decodeCommand t.cmd) t ∧
  o.ill = !(decodeCommand t.cmd).selects cfg

/-- The invariant of a step: the output ports are those of the inputs the ports carry (R24, R30), and
the harness's map is in its canonical form, which is the model's own (DESIGN CHOICE, log entry 12). -/
def Settled (s : State) : Prop := Answers s.cfg s.inp s.out ∧ s.vars.wf = true

end Sys2Proof.Safety
end

