-- ==== Sys2Proof/Certificates/Slice0/Obligations.lean ====
section
/-! DEFINITION. The statements about the model, one `def Obligations.<Name> : Prop` each. -/

open Sys2Proof Sys2Proof.Machine Sys2Proof.Safety

/-! ### The machine as a whole -/

/-- R30, R74, R6 and log entries 1, 2, 3, 12: what the machine holds before the host has driven
anything. That the ports carry 0, `HAS_AUX` is 1, no listing stands there and the variable map is in
canonical form is the model's choice; that the outputs are then `eval` of the inputs, `CHAR_ONE` is
0x31 and `H[ILL]` is 0 with no other variable is the spec's. -/
def Obligations.ResetMeetsInvariant : Prop :=
  Settled State.reset ∧
  State.reset.out = eval State.reset.cfg State.reset.inp ∧
  State.reset.cfg.charOne = 0x31#64 ∧
  State.reset.vars.get Name.illegal = some 0#64 ∧
  (∀ n, n ≠ Name.illegal → State.reset.vars.get n = none) ∧
  State.reset.listing = []

/-- R24, R30: in every state after a step the output ports are those of the values on the input ports,
bit by bit as the instruction rules say. The invariant's other clause, that the harness's variable map
keeps its canonical form (names strictly rising by `Name.before`), is the model's choice and no rule of
the spec: the form is DESIGN CHOICE, log entry 12. -/
def Obligations.StepKeepsOutputsSettled : Prop :=
  ∀ s t : State, Settled s → step s = .next t → Settled t

/-- R21, R51, R74: a step evaluates the command on port `cmd` when the harness has no listing; else it
runs the listing's first line and the rest remains. -/
def Obligations.StepRunsDecodedInstruction : Prop :=
  (∀ (s : State) (i : Instr), s.listing = [] → decodeBytes [s.inp.cmd.setWidth 8] = .ok (i, []) →
    step s = exec i s) ∧
  (∀ (s : State) (l : Line) (rest : List Line), s.listing = l :: rest →
    step s = runLine l { s with listing := rest })

/-- R24, R12: a step with no listing always answers, with the outputs `eval` gives for the parameters
and the inputs, and nothing else changes. -/
def Obligations.StepDrivesEval : Prop :=
  ∀ s : State, s.listing = [] → step s = .next { s with out := eval s.cfg s.inp }

/-- R12, R170, R32: every command, the reserved ones too, completes in every state with every operand,
writes the four outputs and nothing else, and drives exactly what the bitwise sentences of the
instruction rules say. -/
def Obligations.EvalAnswersBitByBit : Prop :=
  ∀ (i : Instr) (s : State), s.inp.cmd = encodeCommand i →
    ∃ o, exec i s = .next { s with out := o } ∧ Answers s.cfg s.inp o

/-- R27: two evaluations with equal inputs give equal outputs, whatever was evaluated before and
whatever the host holds. -/
def Obligations.EqualInputsEqualOutputs : Prop :=
  ∀ s s' : State, s.listing = [] → s'.listing = [] → s.cfg = s'.cfg → s.inp = s'.inp →
    ∃ t t', step s = .next t ∧ step s' = .next t' ∧ t.out = t'.out

/-- R174: at most one of `flag`, `oor`, `ill` is 1 in any evaluation. -/
def Obligations.AtMostOneStatusOutput : Prop :=
  ∀ (i : Instr) (s : State), ∃ o, exec i s = .next { s with out := o } ∧
    (o.ill && o.oor) = false ∧ (o.flag && o.oor) = false ∧ (o.flag && o.ill) = false

/-- R70: a reserved command drives 0, 0, 0 and `ill` = 1, for every `w` and every operand; 14 and 15
always are, ONES, ZEROS and PARSESTEP are when `HAS_AUX` = 0. `ill` is 0 for every other command. -/
def Obligations.ReservedCommandsReportIll : Prop :=
  ∀ (w : Width) (s : State),
    exec (.reserved14 w) s =
      .next { s with out := { result := 0#64, flag := false, oor := false, ill := true } } ∧
    exec (.reserved15 w) s =
      .next { s with out := { result := 0#64, flag := false, oor := false, ill := true } } ∧
    (s.cfg.hasAux = false → ∀ i ∈ [Instr.ones w, .zeros w, .parsestep w],
      exec i s =
        .next { s with out := { result := 0#64, flag := false, oor := false, ill := true } }) ∧
    (∀ i : Instr, i.selects s.cfg = true → ∃ o, exec i s = .next { s with out := o } ∧ o.ill = false)

/-! ### Encoding -/

/-- R60, R62, R66, R69: encoding then decoding gives the instruction back, with what follows it, and
decoding loses no bit: the bytes are the encoding of what they decode to. -/
def Obligations.DecodeEncodeAgree : Prop :=
  (∀ (i : Instr) (rest : List (BitVec 8)), decodeBytes (encode i ++ rest) = .ok (i, rest)) ∧
  (∀ (bs : List (BitVec 8)) (i : Instr) (rest : List (BitVec 8)),
    decodeBytes bs = .ok (i, rest) → bs = encode i ++ rest)

/-- R66, R69: `cmd = 16 * w + op`, and each of the 64 commands is the encoding of what it decodes to. -/
def Obligations.CommandIsWidthAndOpcode : Prop :=
  (∀ i : Instr, (encodeCommand i).toNat = 16 * (widthOf i).code + opcode i) ∧
  (∀ c : Command, encodeCommand (decodeCommand c) = c)

/-- R66's examples, a word of each family. -/
def Obligations.WrittenWordsDecode : Prop :=
  decodeCommand 0x01#6 = .setbit .w8 ∧ decodeCommand 0x11#6 = .setbit .w16 ∧
  decodeCommand 0x21#6 = .setbit .w32 ∧ decodeCommand 0x31#6 = .setbit .w64 ∧
  decodeCommand 0x08#6 = .getbits .w8 ∧ decodeCommand 0x39#6 = .setbits .w64 ∧
  decodeCommand 0x30#6 = .bit .w64 ∧ decodeCommand 0x37#6 = .mask .w64 ∧
  decodeCommand 0x2B#6 = .ones .w32 ∧ decodeCommand 0x1D#6 = .parsestep .w16 ∧
  decodeCommand 0x0E#6 = .reserved14 .w8 ∧ decodeCommand 0x3F#6 = .reserved15 .w64

/-- R68: a port that R65 does not list for a command changes no output, and for a reserved command no
operand port does; the canonical transaction drives every unused port to 0, and the assembler emits
canonical transactions only. -/
def Obligations.UnusedPortsIgnored : Prop :=
  (∀ (cfg : Config) (t u : Transaction), t.cmd = u.cmd →
    ((portsRead (decodeCommand t.cmd)).bf = true → t.bf = u.bf) →
    ((portsRead (decodeCommand t.cmd)).pos = true → t.pos = u.pos) →
    ((portsRead (decodeCommand t.cmd)).len = true → t.len = u.len) →
    ((portsRead (decodeCommand t.cmd)).val = true → t.val = u.val) →
    eval cfg t = eval cfg u) ∧
  (∀ (cfg : Config) (t u : Transaction), t.cmd = u.cmd →
    (decodeCommand t.cmd).selects cfg = false → eval cfg t = eval cfg u) ∧
  (∀ t : Transaction,
    ((portsRead (decodeCommand t.cmd)).bf = false → (canonical t).bf = 0#64) ∧
    ((portsRead (decodeCommand t.cmd)).pos = false → (canonical t).pos = 0#8) ∧
    ((portsRead (decodeCommand t.cmd)).len = false → (canonical t).len = 0#8) ∧
    ((portsRead (decodeCommand t.cmd)).val = false → (canonical t).val = 0#64)) ∧
  (∀ (h : Vars) (c : CommandLine) (t : Transaction), lineTransaction h c = .ok t → canonical t = t)

/-- R67, R68, R77: the canonical transaction, with unused ports 0 and the `w` of BIT and MASK 3, has the
same outputs, and making a transaction canonical twice is making it so once. -/
def Obligations.CanonicalSameOutputs : Prop :=
  ∀ (cfg : Config) (t : Transaction),
    eval cfg (canonical t) = eval cfg t ∧ canonical (canonical t) = canonical t

/-- R77: assembling what the disassembler prints gives the canonical transaction back, for every command
but the reserved opcodes 14 and 15, which have no spelling. -/
def Obligations.AssembleAfterDisassemble : Prop :=
  ∀ (d v : Name) (t : Transaction),
    (disassemble d v t = none ↔ 14 ≤ opcode (decodeCommand t.cmd)) ∧
    ∀ (c : CommandLine) (h : Vars), disassemble d v t = some c → h.get v = some t.bf →
      lineTransaction h c = .ok (canonical t)

/-! ### Primitives -/

/-- R96: `Bit(i) = 2^(i mod 64)`, one bit set, never 0, and two indices give the same mask exactly when
they agree modulo 64; the index bits from 6 up have no effect on a single-bit command. -/
def Obligations.BitIndexCalculator : Prop :=
  (∀ i : Nat, (bit i).toNat = 2 ^ (i % 64) ∧
    (∀ k, k < 64 → (bit i).getLsbD k = decide (k = i % 64)) ∧
    bit i = bit (i % 64) ∧ bit i ≠ 0#64 ∧
    ∀ j : Nat, bit i = bit j ↔ i % 64 = j % 64) ∧
  ∀ (cfg : Config) (w : Width) (bf : Word) (pos pos' len : Index) (val : Word),
    pos.toNat % 64 = pos'.toNat % 64 →
    ∀ i ∈ singleBit w, command cfg i bf pos len val = command cfg i bf pos' len val

/-- R97: the mask generator, for every natural n. -/
def Obligations.MaskGenerator : Prop :=
  ∀ n : Nat, (mask n).toNat = (if n ≤ 63 then 2 ^ n - 1 else 2 ^ 64 - 1) ∧
    ∀ k : Nat, (mask n).getLsbD k = (decide (k < n) && decide (k ≤ 63))

/-- R94, R95: the two shifts as arithmetic and bit by bit, 0 from 64 on. -/
def Obligations.ShiftsAreTotal : Prop :=
  ∀ (x : Word) (s : Nat),
    (shl64 x s).toNat = (x.toNat * 2 ^ s) % 2 ^ 64 ∧
    (∀ k, k < 64 → (shl64 x s).getLsbD k = (decide (s ≤ k) && x.getLsbD (k - s))) ∧
    (shr x s).toNat = x.toNat / 2 ^ s ∧
    (∀ k, k < 64 → (shr x s).getLsbD k = (decide (k + s ≤ 63) && x.getLsbD (k + s))) ∧
    (64 ≤ s → shl64 x s = 0#64 ∧ shr x s = 0#64)

/-- R99: bit k of the field mask is 1 exactly when `pos <= k < pos + len`; it is 0 when `len` = 0 or
`pos` >= 64. -/
def Obligations.FieldMaskBits : Prop :=
  ∀ pos len : Nat,
    (∀ k, k < 64 →
      (fieldMask pos len).getLsbD k = (decide (pos ≤ k) && decide (k < pos + len))) ∧
    (len = 0 ∨ 64 ≤ pos → fieldMask pos len = 0#64)

/-- R140: `popcount_W(v)` is the number of positions below W whose bit is 1, at most W, and depends on
the low W bits only. -/
def Obligations.PopcountCountsLowBits : Prop :=
  ∀ (w : Width) (v : Word),
    popcount w.bits v = ((Finset.range w.bits).filter (fun k => v.getLsbD k = true)).card ∧
    popcount w.bits v ≤ w.bits ∧ popcount w.bits v = popcount w.bits (trunc w.bits v)

/-- R145: the fallback loop that clears the lowest set bit each iteration returns `popcount_W(bfW)`. -/
def Obligations.KernighanLoopIsPopcount : Prop :=
  ∀ (w : Width) (t : Transaction), kernighan 64 (bfW w t) 0 = popcount w.bits (bfW w t)

/-! ### The instructions: the command word, completion in every state, the four outputs, and the frame
(nothing but the outputs changes) -/

/-- R110. -/
def Obligations.BitGivesOneHotMask : Prop :=
  ∀ (w : Width) (s : State), decodeCommand (BitVec.ofNat 6 (16 * w.code + 0)) = .bit w ∧
    ∃ o, exec (.bit w) s = .next { s with out := o } ∧
      o.flag = false ∧ o.oor = false ∧ o.ill = false ∧
      o.result.toNat = 2 ^ (s.inp.pos.toNat % 64)

/-- R111. -/
def Obligations.SetbitSetsOneBit : Prop :=
  ∀ (w : Width) (s : State), decodeCommand (BitVec.ofNat 6 (16 * w.code + 1)) = .setbit w ∧
    ∃ o, exec (.setbit w) s = .next { s with out := o } ∧
      o.flag = false ∧ o.oor = false ∧ o.ill = false ∧
      o.result.toNat =
        natTrunc w.bits (natTrunc w.bits s.inp.bf.toNat ||| natBit s.inp.pos.toNat) ∧
      ∀ k, k < 64 → o.result.getLsbD k =
        (decide (k < w.bits) &&
          (if k = s.inp.pos.toNat % 64 then true else s.inp.bf.getLsbD k))

/-- R112, with its assembler alias NULLBIT. -/
def Obligations.ClrbitClearsOneBit : Prop :=
  (∀ (w : Width) (v : Name) (i : Operand), expandNullbit w v i = .clrbit w v i) ∧
  ∀ (w : Width) (s : State), decodeCommand (BitVec.ofNat 6 (16 * w.code + 2)) = .clrbit w ∧
    ∃ o, exec (.clrbit w) s = .next { s with out := o } ∧
      o.flag = false ∧ o.oor = false ∧ o.ill = false ∧
      o.result.toNat =
        natTrunc w.bits (natTrunc w.bits s.inp.bf.toNat &&& natNot64 (natBit s.inp.pos.toNat)) ∧
      ∀ k, k < 64 → o.result.getLsbD k =
        (decide (k < w.bits) &&
          (if k = s.inp.pos.toNat % 64 then false else s.inp.bf.getLsbD k))

/-- R113. -/
def Obligations.TglbitFlipsOneBit : Prop :=
  ∀ (w : Width) (s : State), decodeCommand (BitVec.ofNat 6 (16 * w.code + 3)) = .tglbit w ∧
    ∃ o, exec (.tglbit w) s = .next { s with out := o } ∧
      o.flag = false ∧ o.oor = false ∧ o.ill = false ∧
      o.result.toNat =
        natTrunc w.bits (natTrunc w.bits s.inp.bf.toNat ^^^ natBit s.inp.pos.toNat) ∧
      ∀ k, k < 64 → o.result.getLsbD k =
        (decide (k < w.bits) &&
          (if k = s.inp.pos.toNat % 64 then !s.inp.bf.getLsbD k else s.inp.bf.getLsbD k))

/-- R114. -/
def Obligations.IssetTestsOneBit : Prop :=
  ∀ (w : Width) (s : State), decodeCommand (BitVec.ofNat 6 (16 * w.code + 4)) = .isset w ∧
    ∃ o, exec (.isset w) s = .next { s with out := o } ∧
      o.result = 0#64 ∧ o.oor = false ∧ o.ill = false ∧
      (o.flag = true ↔ natTrunc w.bits s.inp.bf.toNat &&& natBit s.inp.pos.toNat ≠ 0) ∧
      o.flag = (if s.inp.pos.toNat % 64 < w.bits
        then s.inp.bf.getLsbD (s.inp.pos.toNat % 64) else false)

/-- R115. -/
def Obligations.IsnullTestsOneBit : Prop :=
  ∀ (w : Width) (s : State), decodeCommand (BitVec.ofNat 6 (16 * w.code + 5)) = .isnull w ∧
    ∃ o, exec (.isnull w) s = .next { s with out := o } ∧
      o.result = 0#64 ∧ o.oor = false ∧ o.ill = false ∧
      (o.flag = true ↔ natTrunc w.bits s.inp.bf.toNat &&& natBit s.inp.pos.toNat = 0) ∧
      o.flag = (if s.inp.pos.toNat % 64 < w.bits
        then !s.inp.bf.getLsbD (s.inp.pos.toNat % 64) else true)

/-- R116. -/
def Obligations.GetbitReadsOneBit : Prop :=
  ∀ (w : Width) (s : State), decodeCommand (BitVec.ofNat 6 (16 * w.code + 6)) = .getbit w ∧
    ∃ o, exec (.getbit w) s = .next { s with out := o } ∧
      o.flag = false ∧ o.oor = false ∧ o.ill = false ∧
      o.result.toNat =
        (if natTrunc w.bits s.inp.bf.toNat &&& natBit s.inp.pos.toNat ≠ 0 then 1 else 0) ∧
      o.result.toNat = natShr (natTrunc w.bits s.inp.bf.toNat) (s.inp.pos.toNat % 64) &&& 1

/-- R150. -/
def Obligations.MaskGivesLowBits : Prop :=
  ∀ (w : Width) (s : State), decodeCommand (BitVec.ofNat 6 (16 * w.code + 7)) = .mask w ∧
    ∃ o, exec (.mask w) s = .next { s with out := o } ∧
      o.flag = false ∧ o.ill = false ∧
      (o.oor = true ↔ 64 ≤ s.inp.len.toNat) ∧
      o.result.toNat = natMask s.inp.len.toNat

/-- R151. -/
def Obligations.GetbitsExtractsField : Prop :=
  ∀ (w : Width) (s : State), decodeCommand (BitVec.ofNat 6 (16 * w.code + 8)) = .getbits w ∧
    ∃ o, exec (.getbits w) s = .next { s with out := o } ∧
      o.flag = false ∧ o.ill = false ∧
      (o.oor = true ↔ natOor w.bits s.inp.pos.toNat s.inp.len.toNat) ∧
      o.result.toNat =
        natShr (natTrunc w.bits s.inp.bf.toNat) s.inp.pos.toNat &&& natMask s.inp.len.toNat ∧
      ∀ k, k < 64 → o.result.getLsbD k =
        (if k < s.inp.len.toNat ∧ s.inp.pos.toNat + k < w.bits
          then s.inp.bf.getLsbD (s.inp.pos.toNat + k) else false)

/-- R152. -/
def Obligations.SetbitsInsertsField : Prop :=
  ∀ (w : Width) (s : State), decodeCommand (BitVec.ofNat 6 (16 * w.code + 9)) = .setbits w ∧
    ∃ o, exec (.setbits w) s = .next { s with out := o } ∧
      o.flag = false ∧ o.ill = false ∧
      (o.oor = true ↔ natOor w.bits s.inp.pos.toNat s.inp.len.toNat) ∧
      o.result.toNat =
        natTrunc w.bits
          ((natTrunc w.bits s.inp.bf.toNat &&&
              natNot64 (natShl64 (natMask s.inp.len.toNat) s.inp.pos.toNat)) |||
            natShl64 (s.inp.val.toNat &&& natMask s.inp.len.toNat) s.inp.pos.toNat) ∧
      ∀ k, k < 64 → o.result.getLsbD k =
        (decide (k < w.bits) &&
          (if s.inp.pos.toNat ≤ k ∧ k < s.inp.pos.toNat + s.inp.len.toNat
            then s.inp.val.getLsbD (k - s.inp.pos.toNat) else s.inp.bf.getLsbD k))

/-- R153. -/
def Obligations.ClrbitsClearsField : Prop :=
  ∀ (w : Width) (s : State), decodeCommand (BitVec.ofNat 6 (16 * w.code + 10)) = .clrbits w ∧
    ∃ o, exec (.clrbits w) s = .next { s with out := o } ∧
      o.flag = false ∧ o.ill = false ∧
      (o.oor = true ↔ natOor w.bits s.inp.pos.toNat s.inp.len.toNat) ∧
      o.result.toNat =
        natTrunc w.bits
          (natTrunc w.bits s.inp.bf.toNat &&&
            natNot64 (natShl64 (natMask s.inp.len.toNat) s.inp.pos.toNat)) ∧
      ∀ k, k < 64 → o.result.getLsbD k =
        (decide (k < w.bits) &&
          (if s.inp.pos.toNat ≤ k ∧ k < s.inp.pos.toNat + s.inp.len.toNat
            then false else s.inp.bf.getLsbD k))

/-- R141, with `HAS_AUX` = 1: the count of the one bits of the operand. -/
def Obligations.OnesCountsOneBits : Prop :=
  ∀ (w : Width) (s : State), s.cfg.hasAux = true →
    decodeCommand (BitVec.ofNat 6 (16 * w.code + 11)) = .ones w ∧
    ∃ o, exec (.ones w) s = .next { s with out := o } ∧
      o.flag = false ∧ o.oor = false ∧ o.ill = false ∧
      o.result.toNat =
        ((Finset.range w.bits).filter (fun k => s.inp.bf.getLsbD k = true)).card

/-- R142, with `HAS_AUX` = 1: W minus the count of the one bits, which is the count of the zero bits. -/
def Obligations.ZerosCountsZeroBits : Prop :=
  ∀ (w : Width) (s : State), s.cfg.hasAux = true →
    decodeCommand (BitVec.ofNat 6 (16 * w.code + 12)) = .zeros w ∧
    ∃ o, exec (.zeros w) s = .next { s with out := o } ∧
      o.flag = false ∧ o.oor = false ∧ o.ill = false ∧
      o.result.toNat =
        w.bits - ((Finset.range w.bits).filter (fun k => s.inp.bf.getLsbD k = true)).card ∧
      o.result.toNat =
        ((Finset.range w.bits).filter (fun k => s.inp.bf.getLsbD k = false)).card

/-- R130, with `HAS_AUX` = 1: one character shifted into the accumulator, for every value of the
parameter `CHAR_ONE`, which is 0x31. -/
def Obligations.ParsestepShiftsCharacterIn : Prop :=
  State.reset.cfg.charOne = 0x31#64 ∧
  ∀ (w : Width) (s : State), s.cfg.hasAux = true →
    decodeCommand (BitVec.ofNat 6 (16 * w.code + 13)) = .parsestep w ∧
    ∃ o, exec (.parsestep w) s = .next { s with out := o } ∧
      o.flag = false ∧ o.oor = false ∧ o.ill = false ∧
      o.result.toNat =
        natTrunc w.bits (natShl64 (natTrunc w.bits s.inp.bf.toNat) 1 |||
          (if s.inp.val = s.cfg.charOne then 1 else 0)) ∧
      ∀ k, k < 64 → o.result.getLsbD k =
        (if k = 0 then decide (s.inp.val = s.cfg.charOne)
          else decide (k < w.bits) && s.inp.bf.getLsbD (k - 1))

/-! ### Laws of the single-bit instructions -/

/-- R117: the table of outcomes when the effective index is at or above the operand width, which cannot
happen at W = 64. -/
def Obligations.NarrowWidthOutcomes : Prop :=
  (∀ pos : Index, pos.toNat % 64 < Width.w64.bits) ∧
  ∀ (cfg : Config) (w : Width) (bf : Word) (pos len : Index) (val : Word),
    w.bits ≤ pos.toNat % 64 →
    (command cfg (.bit w) bf pos len val).result.toNat = 2 ^ (pos.toNat % 64) ∧
    (command cfg (.setbit w) bf pos len val).result = trunc w.bits bf ∧
    (command cfg (.clrbit w) bf pos len val).result = trunc w.bits bf ∧
    (command cfg (.tglbit w) bf pos len val).result = trunc w.bits bf ∧
    (command cfg (.isset w) bf pos len val).flag = false ∧
    (command cfg (.isnull w) bf pos len val).flag = true ∧
    (command cfg (.getbit w) bf pos len val).result = 0#64 ∧
    ∀ i ∈ singleBit w, (command cfg i bf pos len val).oor = false

/-- R118: set then test, and clear then test, for every index in or out of the operand. -/
def Obligations.SetThenTestClearThenTest : Prop :=
  ∀ (cfg : Config) (w : Width) (bf : Word) (pos len : Index) (val : Word),
    let cleared := (command cfg (.clrbit w) bf pos len val).result
    let set := (command cfg (.setbit w) bf pos len val).result
    (command cfg (.isset w) cleared pos len val).flag = false ∧
    (command cfg (.isnull w) cleared pos len val).flag = true ∧
    (command cfg (.isset w) set pos len val).flag = decide (pos.toNat % 64 < w.bits)

/-- R119: SETBIT and CLRBIT are idempotent, TGLBIT is an involution on the W-bit operand, and is
idempotent only where it does nothing. -/
def Obligations.IdempotentSetClearInvolutiveToggle : Prop :=
  ∀ (cfg : Config) (w : Width) (bf : Word) (pos len : Index) (val : Word),
    let set := fun x => (command cfg (.setbit w) x pos len val).result
    let clear := fun x => (command cfg (.clrbit w) x pos len val).result
    let toggle := fun x => (command cfg (.tglbit w) x pos len val).result
    set (set bf) = set bf ∧ clear (clear bf) = clear bf ∧ toggle (toggle bf) = trunc w.bits bf ∧
    (toggle (toggle bf) = toggle bf ↔ w.bits ≤ pos.toNat % 64)

/-- R120: the relations between the single-bit instructions, and with GETBITS. -/
def Obligations.SingleBitRelations : Prop :=
  ∀ (cfg : Config) (w : Width) (bf : Word) (pos len : Index) (val : Word),
    let run := fun i => command cfg i bf pos len val
    let one := trunc w.bits (run (.bit w)).result
    (run (.getbit w)).result = bitValue (run (.isset w)).flag ∧
    (run (.isnull w)).flag = !(run (.isset w)).flag ∧
    (run (.setbit w)).result = trunc w.bits bf ||| one ∧
    (run (.clrbit w)).result.toNat =
      (trunc w.bits bf).toNat &&& (2 ^ w.bits - 1 - one.toNat) ∧
    (run (.tglbit w)).result = trunc w.bits bf ^^^ one ∧
    (run (.tglbit w)).result =
      (if (run (.isset w)).flag then (run (.clrbit w)).result else (run (.setbit w)).result) ∧
    (run (.getbit w)).result =
      (command cfg (.getbits w) bf (BitVec.ofNat 8 (pos.toNat % 64)) 1#8 val).result

/-- R121: `len`, `val`, `pos[7:6]` and `bf[63:W]` change no output of a single-bit instruction. -/
def Obligations.SingleBitIgnoresUnusedInputs : Prop :=
  ∀ (cfg : Config) (w : Width) (bf bf' : Word) (pos pos' len len' : Index) (val val' : Word),
    pos.toNat % 64 = pos'.toNat % 64 → bf.toNat % 2 ^ w.bits = bf'.toNat % 2 ^ w.bits →
    ∀ i ∈ singleBit w, command cfg i bf pos len val = command cfg i bf' pos' len' val'

/-! ### Laws of the range instructions -/

/-- R155: the out-of-range predicate, its short form, and when it is false. -/
def Obligations.OorRangeShortForm : Prop :=
  ∀ (w : Width) (pos len : Nat),
    (oorRange w.bits pos len = true ↔ natOor w.bits pos len) ∧
    (oorRange w.bits pos len = true ↔ pos + len > w.bits ∨ (pos = w.bits ∧ len = 0)) ∧
    (oorRange w.bits pos len = false ↔ pos < w.bits ∧ pos + len ≤ w.bits)

/-- R156: the classes cover every range, A and B are the ones without `oor`, and the values the
classes name: F reads 0 and changes nothing, G acts as `len` = 64, B is the whole word. The values of F
and G are the spec's decisions D11 to D13. -/
def Obligations.RangeClassesDecideOor : Prop :=
  ∀ (cfg : Config) (w : Width) (bf : Word) (pos len : Index) (val : Word),
    let cls := RangeClass.condition w.bits pos.toNat len.toNat
    let run := fun i => command cfg i bf pos len val
    RangeClass.all.any cls = true ∧
    (∀ i ∈ [Instr.getbits w, .setbits w, .clrbits w],
      ((run i).oor = false ↔ cls .inRange = true ∨ cls .wholeWord = true) ∧
      (cls .lengthAbove64 = true → (run i).result = (command cfg i bf pos 64#8 val).result)) ∧
    (cls .startOutside = true →
      (run (.getbits w)).result = 0#64 ∧ (run (.setbits w)).result = trunc w.bits bf ∧
      (run (.clrbits w)).result = trunc w.bits bf) ∧
    (cls .wholeWord = true →
      (run (.getbits w)).result = bf ∧ (run (.setbits w)).result = val ∧
      (run (.clrbits w)).result = 0#64)

/-- R157: clearing first changes nothing; what SETBITS wrote GETBITS reads back, cut to the part of the
field below bit W; after CLRBITS it reads 0 in range. -/
def Obligations.InsertExtractRoundTrip : Prop :=
  ∀ (cfg : Config) (w : Width) (bf : Word) (pos len : Index) (val : Word),
    let set := fun x => (command cfg (.setbits w) x pos len val).result
    let clear := fun x => (command cfg (.clrbits w) x pos len val).result
    let get := fun x => (command cfg (.getbits w) x pos len val).result
    set (clear bf) = set bf ∧
    (RangeClass.condition w.bits pos.toNat len.toNat .inRange = true →
      get (set bf) = val &&& mask len.toNat ∧ get (clear bf) = 0#64) ∧
    (pos.toNat < w.bits →
      get (set bf) = val &&& mask len.toNat &&& mask (w.bits - pos.toNat)) ∧
    (w.bits ≤ pos.toNat → get (set bf) = 0#64)

/-- R158: SETBITS and CLRBITS are idempotent in every class of R156; GETBITS is not. -/
def Obligations.RangeInsertIdempotent : Prop :=
  (∀ (cfg : Config) (w : Width) (bf : Word) (pos len : Index) (val : Word),
    let set := fun x => (command cfg (.setbits w) x pos len val).result
    let clear := fun x => (command cfg (.clrbits w) x pos len val).result
    set (set bf) = set bf ∧ clear (clear bf) = clear bf) ∧
  (∀ cfg : Config,
    let get := fun x => (command cfg (.getbits .w8) x 1#8 4#8 0#64).result
    get 0xD6#64 = 11#64 ∧ get (get 0xD6#64) = 5#64)

/-- R159: the relations between the range instructions, and with the single-bit ones. -/
def Obligations.RangeRelations : Prop :=
  ∀ (cfg : Config) (w : Width) (bf : Word) (pos len : Index) (val : Word),
    let run := fun i => command cfg i bf pos len val
    (run (.clrbits w)).result = (command cfg (.setbits w) bf pos len 0#64).result ∧
    (command cfg (.getbits w) bf 0#8 len val).result = trunc w.bits bf &&& mask len.toNat ∧
    (run (.mask w)).result =
      (command cfg (.getbits .w64) (BitVec.allOnes 64) 0#8 len val).result ∧
    (pos.toNat ≤ 63 → (command cfg (.setbits w) bf pos 1#8 val).result =
      (if val.getLsbD 0 then (run (.setbit w)).result else (run (.clrbit w)).result)) ∧
    (run (.getbits w)).oor = (run (.setbits w)).oor ∧
    (run (.getbits w)).oor = (run (.clrbits w)).oor ∧
    ∀ (bf' val' : Word), ∀ i ∈ [Instr.getbits w, .setbits w, .clrbits w],
      (command cfg i bf' pos len val').oor = (run i).oor

/-- R160: no input makes SETBITS or CLRBITS disturb an operand bit outside `[pos, pos + len)`. -/
def Obligations.BitsOutsideFieldUnchanged : Prop :=
  ∀ (w : Width) (s : State), ∀ i ∈ [Instr.setbits w, .clrbits w],
    ∃ o, exec i s = .next { s with out := o } ∧
      ∀ k, k < w.bits → k < s.inp.pos.toNat ∨ s.inp.pos.toNat + s.inp.len.toNat ≤ k →
        o.result.getLsbD k = s.inp.bf.getLsbD k

/-- R161: the inputs a range instruction ignores, the bits of `val` at and above `len` among them. -/
def Obligations.RangeIgnoresUnusedInputs : Prop :=
  ∀ (cfg : Config) (w w' : Width) (bf bf' : Word) (pos pos' len : Index) (val val' : Word),
    command cfg (.mask w) bf pos len val = command cfg (.mask w') bf' pos' len val' ∧
    (bf.toNat % 2 ^ w.bits = bf'.toNat % 2 ^ w.bits →
      command cfg (.getbits w) bf pos len val = command cfg (.getbits w) bf' pos len val' ∧
      command cfg (.clrbits w) bf pos len val = command cfg (.clrbits w) bf' pos len val' ∧
      ((∀ k, k < min len.toNat 64 → val.getLsbD k = val'.getLsbD k) →
        command cfg (.setbits w) bf pos len val = command cfg (.setbits w) bf' pos len val'))

/-! ### Widths -/

/-- R91: the operand is `bf mod 2^W`, and bits `bf[63:W]` never influence any output, of any command. -/
def Obligations.OperandAboveWidthIgnored : Prop :=
  (∀ (w : Width) (t : Transaction), (bfW w t).toNat = t.bf.toNat % 2 ^ w.bits) ∧
  ∀ (cfg : Config) (i : Instr) (bf bf' : Word) (pos len : Index) (val : Word),
    (∀ k, k < (widthOf i).bits → bf.getLsbD k = bf'.getLsbD k) →
    command cfg i bf pos len val = command cfg i bf' pos len val

/-- R92: an in-place result is below 2^W with its high bits 0, and so are the results of GETBITS,
GETBIT, ONES and ZEROS. -/
def Obligations.ResultsBelowWidth : Prop :=
  ∀ (w : Width) (s : State),
    ∀ i ∈ inPlace w ++ [Instr.getbits w, .getbit w, .ones w, .zeros w],
      ∃ o, exec i s = .next { s with out := o } ∧ o.result.toNat < 2 ^ w.bits ∧
        ∀ k, w.bits ≤ k → o.result.getLsbD k = false

/-! ### AUX -/

/-- R131: PARSESTEP is neither idempotent nor an involution (1, then 2, then 4); a second step changes
nothing exactly when the accumulator has become all zeros or, for `'1'`, all ones. -/
def Obligations.ParsestepNotIdempotent : Prop :=
  (∀ cfg : Config, cfg.hasAux = true → cfg.charOne = 0x31#64 →
    parseStep cfg .w8 1#64 0x30#64 = 2#64 ∧
    parseStep cfg .w8 (parseStep cfg .w8 1#64 0x30#64) 0x30#64 = 4#64) ∧
  ∀ (cfg : Config) (w : Width) (a c : Word), cfg.hasAux = true →
    (parseStep cfg w (parseStep cfg w a c) c = parseStep cfg w a c ↔
      parseStep cfg w a c = if c = cfg.charOne then mask w.bits else 0#64)

/-- R132, R133: the PARSEBITS fold is the binary number the characters spell, modulo 2^W. -/
def Obligations.ParsebitsClosedForm : Prop :=
  ∀ (cfg : Config) (w : Width) (cs : List Word), cfg.hasAux = true →
    (parseBits cfg w cs).toNat =
      (∑ j : Fin cs.length,
        (if cs[j] = cfg.charOne then 1 else 0) * 2 ^ (cs.length - 1 - j.val)) % 2 ^ w.bits

/-- R143: the ones and the zeros of an operand are W together. -/
def Obligations.OnesPlusZerosIsWidth : Prop :=
  ∀ (cfg : Config) (w : Width) (bf : Word) (pos len : Index) (val : Word), cfg.hasAux = true →
    (command cfg (.ones w) bf pos len val).result.toNat +
      (command cfg (.zeros w) bf pos len val).result.toNat = w.bits

/-! ### The harness -/

/-- R74: a command line forms its transaction from the variables, applies `eval` once, performs the
harness effect, and is then done. -/
def Obligations.CommandLineEvaluatesOnce : Prop :=
  ∀ (s : State) (c : CommandLine) (rest : List Line) (t : Transaction),
    s.listing = .command c :: rest → c.wellFormed = true → lineTransaction s.vars c = .ok t →
    step s = .next {
      cfg := s.cfg
      inp := t
      out := eval s.cfg t
      vars := lineEffect (recordIllegal s.vars (eval s.cfg t)) (eval s.cfg t) c
      listing := rest }

/-- R74: the directive `.let v = literal` assigns `H[v]` without involving the block: the ports, the
outputs and every other variable keep their values. -/
def Obligations.LetAssignsVariable : Prop :=
  ∀ (s : State) (v : Name) (x : Word) (rest : List Line),
    s.listing = .assign v x :: rest → v.destination = true →
    ∃ h : Vars, step s = .next { s with vars := h, listing := rest } ∧ h.get v = some x ∧
      ∀ n : Name, n ≠ v → h.get n = s.vars.get n

/-- R28, R73, R74: what a command line writes in the host's variables: the destination gets `result`,
`F` the `flag` of a predicate, `OOR` the `oor` of a range command or MASK, `ILL` becomes 1 on `ill`, and
every other variable keeps its value. -/
def Obligations.HarnessWritesBack : Prop :=
  ∀ (h : Vars) (o : Outputs) (c : CommandLine), c.wellFormed = true →
    let h' := lineEffect (recordIllegal h o) o c
    (∀ d, lineDestination c = some d → h'.get d = some o.result) ∧
    h'.get Name.predicate =
      (if lineTests c then some (bitValue o.flag) else h.get Name.predicate) ∧
    h'.get Name.outOfRange =
      (if lineReportsRange c then some (bitValue o.oor) else h.get Name.outOfRange) ∧
    h'.get Name.illegal = (if o.ill then some 1#64 else h.get Name.illegal) ∧
    ∀ n : Name, lineDestination c ≠ some n → n.reserved = false → h'.get n = h.get n

/-- R31, R73, R74: a line that reads an unassigned variable, or puts a value of 256 or more on an index
port, or that the assembler rejects, stops the listing; nothing else does. The fault is the model's
reading of "an error of the listing" (log entries 3, 6). -/
def Obligations.ListingStopsOnlyOnErrors : Prop :=
  (∀ (s : State) (w : Width) (v : Name) (i : Operand) (rest : List Line),
    s.listing = .command (.setbit w v i) :: rest → (CommandLine.setbit w v i).wellFormed = true →
    s.vars.get v = none → step s = .fault (.unassignedVariable v)) ∧
  (∀ (s : State) (w : Width) (v n : Name) (x : Word) (rest : List Line),
    s.listing = .command (.setbit w v (.var n)) :: rest →
    (CommandLine.setbit w v (.var n)).wellFormed = true → s.vars.get v ≠ none →
    s.vars.get n = some x → 256 ≤ x.toNat → step s = .fault (.indexTooWide x)) ∧
  (∀ (s : State) (f : Fault), step s = .fault f →
    ∃ l rest, s.listing = l :: rest ∧
      ((f = .rejectedLine ∧ l.wellFormed = false) ∨
        ∃ c, l = .command c ∧ lineTransaction s.vars c = .error f)) ∧
  (∀ (s : State) (r : Refusal), step s ≠ .refused r)

/-- R75, R132: the lines PARSEBITS stands for leave the fold's value in the variable and the rest of the
listing to run. -/
def Obligations.ParsebitsLinesRunFold : Prop :=
  ∀ (s : State) (w : Width) (v : Name) (str : List Char) (rest : List Line),
    v.destination = true → s.listing = expandParsebits w v str ++ rest →
    ∃ t : State, Host.Core.run Sys2Proof.core (str.length + 1) s = .next t ∧
      t.listing = rest ∧ t.cfg = s.cfg ∧ t.vars.get v = some (parseBits s.cfg w (str.map charCode))
end

