-- ==== Sys2Proof/Laws/Primitives.lean ====
section
/-! SUPPORT. What each primitive does, bit by bit and as a number; callers cite these and do not unfold
the primitives. -/

namespace Sys2Proof

theorem width_bits_le (w : Width) : w.bits ≤ 64 := by cases w <;> decide

theorem width_bits_ge (w : Width) : 8 ≤ w.bits := by cases w <;> decide

namespace Machine

theorem getLsbD_trunc (n : Nat) (x : Word) (k : Nat) :
    (trunc n x).getLsbD k = (decide (k < n) && x.getLsbD k) := by
  simp only [trunc, BitVec.getLsbD_setWidth]
  by_cases hk : k < 64
  · simp [hk]
  · simp [hk, BitVec.getLsbD_of_ge x k (by omega)]

theorem toNat_trunc (n : Nat) (x : Word) : (trunc n x).toNat = x.toNat % 2 ^ n := by
  simp only [trunc, BitVec.toNat_setWidth]
  exact Nat.mod_eq_of_lt (lt_of_le_of_lt (Nat.mod_le _ _) x.isLt)

theorem getLsbD_not64 (x : Word) (k : Nat) :
    (not64 x).getLsbD k = (decide (k < 64) && !x.getLsbD k) := by
  simp [not64]

theorem toNat_not64 (x : Word) : (not64 x).toNat = (2 ^ 64 - 1) - x.toNat := by
  simp [not64, BitVec.toNat_not]

theorem getLsbD_shl64 (x : Word) (s k : Nat) :
    (shl64 x s).getLsbD k = (decide (k < 64) && (decide (s ≤ k) && x.getLsbD (k - s))) := by
  by_cases h : k < s
  · simp [shl64, h, Nat.not_le.mpr h]
  · simp [shl64, h, Nat.not_lt.mp h]

theorem toNat_shl64 (x : Word) (s : Nat) : (shl64 x s).toNat = x.toNat * 2 ^ s % 2 ^ 64 := by
  simp [shl64, BitVec.toNat_shiftLeft, Nat.shiftLeft_eq]

theorem getLsbD_shr (x : Word) (s k : Nat) : (shr x s).getLsbD k = x.getLsbD (s + k) := by
  simp [shr]

theorem toNat_shr (x : Word) (s : Nat) : (shr x s).toNat = x.toNat / 2 ^ s := by
  simp [shr, BitVec.toNat_ushiftRight, Nat.shiftRight_eq_div_pow]

theorem getLsbD_bit (i k : Nat) : (bit i).getLsbD k = decide (k = i % 64) := by
  have : i % 64 < 64 := Nat.mod_lt _ (by decide)
  simp only [bit, effectiveIndex, Config.idxMod, getLsbD_shl64, BitVec.getLsbD_one]
  by_cases h : k = i % 64
  · simp [h, this]
  · simp only [h, decide_false, Bool.and_eq_false_iff, decide_eq_false_iff_not]
    omega

theorem toNat_bit (i : Nat) : (bit i).toNat = 2 ^ (i % 64) := by
  have : i % 64 < 64 := Nat.mod_lt _ (by decide)
  rw [bit, toNat_shl64, effectiveIndex, Config.idxMod]
  simpa using Nat.mod_eq_of_lt (Nat.pow_lt_pow_right (by decide : 1 < 2) this)

theorem toNat_mask (n : Nat) : (mask n).toNat = if n ≤ 63 then 2 ^ n - 1 else 2 ^ 64 - 1 := by
  by_cases h : n < 64
  · have hlt : 2 ^ n < 2 ^ 64 := Nat.pow_lt_pow_right (by decide) h
    have hpos : 0 < 2 ^ n := Nat.two_pow_pos n
    simp only [mask, h, if_true, BitVec.toNat_sub, toNat_shl64, show n ≤ 63 by omega]
    simp only [BitVec.toNat_ofNat, Nat.one_mod, Nat.one_mul]
    rw [Nat.mod_eq_of_lt hlt]
    omega
  · simp [mask, h, show ¬ n ≤ 63 by omega, Config.maskSat]

theorem getLsbD_mask (n k : Nat) : (mask n).getLsbD k = (decide (k < n) && decide (k < 64)) := by
  rw [BitVec.getLsbD, toNat_mask]
  split
  · rw [Nat.testBit_two_pow_sub_one]
    by_cases h : k < n
    · simp [h]; omega
    · simp [h]
  · rw [Nat.testBit_two_pow_sub_one]
    by_cases h : k < 64
    · simp [h]; omega
    · simp [h]

theorem getLsbD_fieldMask (pos len k : Nat) :
    (fieldMask pos len).getLsbD k =
      (decide (k < 64) && (decide (pos ≤ k) && decide (k < pos + len))) := by
  rw [fieldMask, getLsbD_shl64, getLsbD_mask, Bool.eq_iff_iff]
  simp only [Bool.and_eq_true, decide_eq_true_eq]
  omega

theorem popcount_le (n : Nat) (v : Word) : popcount n v ≤ n := by
  simpa [popcount] using List.countP_le_length (p := fun k => v.getLsbD k) (l := List.range n)

theorem popcount_succ (n : Nat) (v : Word) :
    popcount (n + 1) v = popcount n v + (if v.getLsbD n then 1 else 0) := by
  simp [popcount, List.range_succ, List.countP_singleton]

theorem popcount_trunc (n : Nat) (v : Word) : popcount n (trunc n v) = popcount n v := by
  refine List.countP_congr fun k hk => ?_
  simp [getLsbD_trunc, List.mem_range.mp hk]

theorem getLsbD_bitValue (b : Bool) (k : Nat) :
    (bitValue b).getLsbD k = (decide (k = 0) && b) := by
  cases b <;> simp [bitValue, BitVec.getLsbD_one]

theorem toNat_bitValue (b : Bool) : (bitValue b).toNat = b.toNat := by
  cases b <;> rfl

theorem charIsOne_eq (cfg : Config) (t : Transaction) :
    charIsOne cfg t = decide (t.val = cfg.charOne) := by
  rw [charIsOne, Bool.eq_iff_iff]; simp

theorem getLsbD_bfW (w : Width) (t : Transaction) (k : Nat) :
    (bfW w t).getLsbD k = (decide (k < w.bits) && t.bf.getLsbD k) := getLsbD_trunc _ _ _

/-- ISSET's test reads bit e of the W-bit operand (R114). -/
theorem bitIsSet_eq (w : Width) (t : Transaction) :
    bitIsSet w t = (decide (t.pos.toNat % 64 < w.bits) && t.bf.getLsbD (t.pos.toNat % 64)) := by
  have he : t.pos.toNat % 64 < 64 := Nat.mod_lt _ (by decide)
  have key : ∀ k, (bfW w t &&& posBit t).getLsbD k =
      (decide (k = t.pos.toNat % 64) && (decide (k < w.bits) && t.bf.getLsbD k)) := by
    intro k
    rw [BitVec.getLsbD_and, getLsbD_bfW, posBit, getLsbD_bit, Bool.and_comm]
  rw [bitIsSet, Bool.eq_iff_iff, bne_iff_ne]
  constructor
  · intro h
    by_contra hne
    refine h (BitVec.eq_of_getLsbD_eq fun k _ => ?_)
    rw [key]
    by_cases hk : k = t.pos.toNat % 64
    · subst hk; simpa using hne
    · simp [hk]
  · intro h h0
    have := key (t.pos.toNat % 64)
    rw [h0] at this
    simp [h] at this

/-- `OorRange` is false exactly when the range lies inside the operand and starts inside it (R155). -/
theorem oorRange_eq_false_iff (w : Width) (pos len : Nat) :
    oorRange w.bits pos len = false ↔ pos < w.bits ∧ pos + len ≤ w.bits := by
  have := width_bits_le w
  simp only [oorRange, Bool.or_eq_false_iff, decide_eq_false_iff_not]
  omega

end Machine

end Sys2Proof
end

