-- ==== Sys2Proof/Laws/State.lean ====
section
/-! SUPPORT. The small lemmas of the state: each update, field by field. -/

namespace Sys2Proof.Machine

variable (s : State) (o : Outputs) (cfg : Config) (t : Transaction)

@[simp] theorem drive_cfg : (drive s o).cfg = s.cfg := rfl
@[simp] theorem drive_inp : (drive s o).inp = s.inp := rfl
@[simp] theorem drive_out : (drive s o).out = o := rfl
@[simp] theorem drive_vars : (drive s o).vars = s.vars := rfl
@[simp] theorem drive_listing : (drive s o).listing = s.listing := rfl

@[simp] theorem present_cfg : (present cfg t).cfg = cfg := rfl
@[simp] theorem present_inp : (present cfg t).inp = t := rfl
@[simp] theorem present_listing : (present cfg t).listing = [] := rfl

@[simp] theorem transaction_cmd (i : Instr) (bf : Word) (pos len : Index) (val : Word) :
    (transaction i bf pos len val).cmd = encodeCommand i := rfl
@[simp] theorem transaction_bf (i : Instr) (bf : Word) (pos len : Index) (val : Word) :
    (transaction i bf pos len val).bf = bf := rfl
@[simp] theorem transaction_pos (i : Instr) (bf : Word) (pos len : Index) (val : Word) :
    (transaction i bf pos len val).pos = pos := rfl
@[simp] theorem transaction_len (i : Instr) (bf : Word) (pos len : Index) (val : Word) :
    (transaction i bf pos len val).len = len := rfl
@[simp] theorem transaction_val (i : Instr) (bf : Word) (pos len : Index) (val : Word) :
    (transaction i bf pos len val).val = val := rfl

@[simp] theorem withFetchWord_cmd (n w : Nat) :
    (s.withFetchWord n w).inp.cmd = BitVec.ofNat 6 w := rfl
@[simp] theorem withFetchWord_listing (n w : Nat) : (s.withFetchWord n w).listing = [] := rfl
@[simp] theorem withFetchWord_cfg (n w : Nat) : (s.withFetchWord n w).cfg = s.cfg := rfl
@[simp] theorem withFetchWord_out (n w : Nat) : (s.withFetchWord n w).out = s.out := rfl
@[simp] theorem withFetchWord_vars (n w : Nat) : (s.withFetchWord n w).vars = s.vars := rfl

end Sys2Proof.Machine
end

