-- ==== Sys2Proof/Laws/Exec.lean ====
section
/-! SUPPORT. What `exec` can do, said once: it answers a next state in which only the outputs are
written, and they are a function of the parameters and the inputs. -/

namespace Sys2Proof.Machine

/-- `exec` always answers next, and only the output ports change; they depend on nothing but the
instruction, the parameters and the inputs (R12, R24, R27). -/
theorem exec_eq_drive (i : Instr) (s : State) :
    exec i s = .next (drive s (answerOutputs (exec i (present s.cfg s.inp)))) := by
  cases i <;> rfl

theorem eval_eq (cfg : Config) (t : Transaction) :
    eval cfg t = answerOutputs (exec (decodeCommand t.cmd) (present cfg t)) := rfl

/-- Decoding the encoding of an instruction gives the instruction (R66, R69). -/
theorem decodeCommand_encodeCommand (i : Instr) : decodeCommand (encodeCommand i) = i := by
  cases i <;> rename_i w <;> cases w <;> decide

/-- Evaluating a transaction made for `i` runs the meaning of `i`. -/
theorem eval_transaction (cfg : Config) (i : Instr) (bf : Word) (pos len : Index) (val : Word) :
    eval cfg (transaction i bf pos len val) =
      answerOutputs (exec i (present cfg (transaction i bf pos len val))) := by
  rw [eval_eq, transaction_cmd, decodeCommand_encodeCommand]

theorem auxOutputs_of_hasAux {cfg : Config} (h : cfg.hasAux = true) (o : Outputs) :
    auxOutputs cfg o = o := by simp [auxOutputs, h]

theorem auxOutputs_of_not_hasAux {cfg : Config} (h : cfg.hasAux = false) (o : Outputs) :
    auxOutputs cfg o = reservedOutputs := by simp [auxOutputs, h]

end Sys2Proof.Machine
end

