-- ==== Sys2Proof/Laws/PerInstr.lean ====
section
/-! SUPPORT. The family of per-instruction statements: the opcode-map row of each constructor
(spec 30_encoding.md R66). -/

/-- The command of `i` selects the row of `i`, `cmd & 0x0F = match`, for every `w`, and keeps `w` in bits
5 and 4 (R62, R66). -/
def Sys2Proof.Laws.Row.Statement (i : Sys2Proof.Instr) : Prop :=
  Sys2Proof.encodeCommand i &&& 0x0F#6 = BitVec.ofNat 6 (Sys2Proof.opcode i) ∧
  (Sys2Proof.encodeCommand i).extractLsb' 4 2 = BitVec.ofNat 2 (Sys2Proof.widthOf i).code

namespace Sys2Proof.Laws.Row

theorem bit (w : Width) : Statement (.bit w) := by
  unfold Statement; cases w <;> decide
theorem setbit (w : Width) : Statement (.setbit w) := by
  unfold Statement; cases w <;> decide
theorem clrbit (w : Width) : Statement (.clrbit w) := by
  unfold Statement; cases w <;> decide
theorem tglbit (w : Width) : Statement (.tglbit w) := by
  unfold Statement; cases w <;> decide
theorem isset (w : Width) : Statement (.isset w) := by
  unfold Statement; cases w <;> decide
theorem isnull (w : Width) : Statement (.isnull w) := by
  unfold Statement; cases w <;> decide
theorem getbit (w : Width) : Statement (.getbit w) := by
  unfold Statement; cases w <;> decide
theorem mask (w : Width) : Statement (.mask w) := by
  unfold Statement; cases w <;> decide
theorem getbits (w : Width) : Statement (.getbits w) := by
  unfold Statement; cases w <;> decide
theorem setbits (w : Width) : Statement (.setbits w) := by
  unfold Statement; cases w <;> decide
theorem clrbits (w : Width) : Statement (.clrbits w) := by
  unfold Statement; cases w <;> decide
theorem ones (w : Width) : Statement (.ones w) := by
  unfold Statement; cases w <;> decide
theorem zeros (w : Width) : Statement (.zeros w) := by
  unfold Statement; cases w <;> decide
theorem parsestep (w : Width) : Statement (.parsestep w) := by
  unfold Statement; cases w <;> decide
theorem reserved14 (w : Width) : Statement (.reserved14 w) := by
  unfold Statement; cases w <;> decide
theorem reserved15 (w : Width) : Statement (.reserved15 w) := by
  unfold Statement; cases w <;> decide

end Sys2Proof.Laws.Row
end

