-- ==== Sys2Proof/Laws/Vars.lean ====
section
/-! SUPPORT. The harness's variable map: reading after writing, and that every write keeps the
canonical form. -/

namespace Sys2Proof.Machine

theorem Name.before_irrefl : ∀ n : Name, Name.before n n = false
  | [] => rfl
  | _ :: as => by simp [Name.before, Name.before_irrefl as]

theorem Char.eq_of_toNat_eq {a b : Char} (h : a.toNat = b.toNat) : a = b := by
  apply Char.ext
  exact UInt32.toNat_inj.mp h

/-- Of two names, one is before the other unless they are equal. -/
theorem Name.before_total : ∀ m n : Name, m ≠ n → Name.before n m = false → Name.before m n = true
  | [], [], h, _ => absurd rfl h
  | [], _ :: _, _, _ => rfl
  | _ :: _, [], _, h => by simp [Name.before] at h
  | a :: as, b :: bs, hne, h => by
    by_cases hab : a = b
    · subst hab
      simp only [Name.before, if_true] at h ⊢
      exact Name.before_total as bs (fun e => hne (by rw [e])) h
    · simp only [Name.before, hab, Ne.symm hab, if_false, decide_eq_false_iff_not,
        decide_eq_true_eq] at h ⊢
      have : a.toNat ≠ b.toNat := fun e => hab (Char.eq_of_toNat_eq e)
      omega

theorem Vars.get_set_same : ∀ (h : Vars) (n : Name) (x : Word), (h.set n x).get n = some x
  | [], n, x => by simp [Vars.set, Vars.get]
  | p :: rest, n, x => by
    simp only [Vars.set]
    split
    · simp [Vars.get]
    · rename_i hne
      split
      · simp [Vars.get]
      · simp [Vars.get, hne, Vars.get_set_same rest n x]

theorem Vars.get_set_other :
    ∀ (h : Vars) (n m : Name) (x : Word), m ≠ n → (h.set n x).get m = h.get m
  | [], n, m, x, hmn => by simp [Vars.set, Vars.get, Ne.symm hmn]
  | p :: rest, n, m, x, hmn => by
    simp only [Vars.set]
    split
    · rename_i hp
      simp [Vars.get, hp, Ne.symm hmn]
    · split
      · simp [Vars.get, Ne.symm hmn]
      · by_cases hpm : p.1 = m
        · simp [Vars.get, hpm]
        · simp [Vars.get, hpm, Vars.get_set_other rest n m x hmn]

/-- A map whose head comes after `q` stays canonical behind `q`. -/
theorem Vars.wf_cons {q : Name × Word} {h : Vars} (hw : h.wf = true)
    (hq : ∀ p ∈ h.head?, Name.before q.1 p.1 = true) : Vars.wf (q :: h) = true := by
  cases h with
  | nil => rfl
  | cons p rest => simp [Vars.wf, hw, hq p (by simp)]

theorem Vars.wf_tail {q : Name × Word} {h : Vars} (hw : Vars.wf (q :: h) = true) :
    h.wf = true := by
  cases h with
  | nil => rfl
  | cons p rest => simp [Vars.wf] at hw; exact hw.2

theorem Vars.head_before {q : Name × Word} {h : Vars} (hw : Vars.wf (q :: h) = true) :
    ∀ p ∈ h.head?, Name.before q.1 p.1 = true := by
  cases h with
  | nil => simp
  | cons p rest => simp [Vars.wf] at hw; simp [hw.1]

/-- The first name after a write is the written one or the old first one. -/
theorem Vars.head_set (h : Vars) (n : Name) (x : Word) (r : Name)
    (hr : Name.before r n = true) (hh : ∀ p ∈ h.head?, Name.before r p.1 = true) :
    ∀ p ∈ (h.set n x).head?, Name.before r p.1 = true := by
  cases h with
  | nil => simp [Vars.set, hr]
  | cons p rest =>
    simp only [Vars.set]
    split
    · simp [hr]
    · split
      · simp [hr]
      · simpa using hh

/-- Every write keeps the canonical form. -/
theorem Vars.wf_set : ∀ (h : Vars) (n : Name) (x : Word), h.wf = true → (h.set n x).wf = true
  | [], _, _, _ => rfl
  | p :: rest, n, x, hw => by
    have htail := Vars.wf_tail hw
    have hhead := Vars.head_before hw
    simp only [Vars.set]
    split
    · rename_i hp
      exact Vars.wf_cons htail (by simpa [hp] using hhead)
    · rename_i hne
      split
      · rename_i hb
        exact Vars.wf_cons hw (by simpa using hb)
      · rename_i hb
        have hpn : Name.before p.1 n = true :=
          Name.before_total p.1 n hne (by simpa using hb)
        exact Vars.wf_cons (Vars.wf_set rest n x htail) (Vars.head_set rest n x p.1 hpn hhead)

theorem wf_recordIllegal (h : Vars) (o : Outputs) (hw : h.wf = true) :
    (recordIllegal h o).wf = true := by
  unfold recordIllegal
  split
  · exact Vars.wf_set _ _ _ hw
  · exact hw

/-- The write-back of a command line keeps the canonical form. -/
theorem wf_lineEffect (h : Vars) (o : Outputs) (c : CommandLine) (hw : h.wf = true) :
    (lineEffect h o c).wf = true := by
  cases c <;> simp only [lineEffect, storeResult, storeFlag, storeRange] <;>
    first
    | exact Vars.wf_set _ _ _ hw
    | exact Vars.wf_set _ _ _ (Vars.wf_set _ _ _ hw)

end Sys2Proof.Machine
end

