-- ==== Sys2Proof/Tests/Slice0.lean ====
section
/-! SUPPORT. Tests: ill-formed terms refused, command words written out bit by bit from R60 and R66, the
worked examples of the instruction rules, source lines, and a witness for every statement that has
hypotheses. Every expected result is the spec's, named in the test's comment. -/

namespace Sys2Proof.Tests

open Sys2Proof.Machine Sys2Proof.Safety

/-- The machine with one transaction of R76 on its ports. -/
def ports (cmd bf pos len val : Nat) : State :=
  { State.reset with
    inp := { cmd := BitVec.ofNat 6 cmd, bf := BitVec.ofNat 64 bf, pos := BitVec.ofNat 8 pos,
             len := BitVec.ofNat 8 len, val := BitVec.ofNat 64 val } }

/-- The same machine built without AUX. -/
def coreOnly (s : State) : State := { s with cfg := { s.cfg with hasAux := false } }

/-- The outcome tuple of R76 after one step. -/
def outcome (s : State) : Option (Nat × Bool × Bool × Bool) :=
  match step s with
  | .next t => some (t.out.result.toNat, t.out.flag, t.out.oor, t.out.ill)
  | .fault _ => none
  | .refused _ => none

/-- A harness whose variables hold these values and whose listing is the one line of this source text. -/
def harness (vars : Vars) (text : String) : State :=
  { State.reset with
    vars := vars
    listing := (assembleLine text.toList).getD [] }

/-- What a step leaves in a variable. -/
def varAfter (s : State) (n : Name) : Option Nat :=
  match step s with
  | .next t => (t.vars.get n).map BitVec.toNat
  | .fault _ => none
  | .refused _ => none

/-! ### Ill-formed terms -/

/-- R69, R70: 14 and 15 select nothing; AUX selects nothing without `HAS_AUX`. -/
theorem test_selects_refuses_reserved :
    (Instr.reserved14 .w8).selects State.reset.cfg = false ∧
    (Instr.reserved15 .w64).selects State.reset.cfg = false ∧
    (Instr.ones .w8).selects (coreOnly State.reset).cfg = false ∧
    (Instr.zeros .w8).selects (coreOnly State.reset).cfg = false ∧
    (Instr.parsestep .w8).selects (coreOnly State.reset).cfg = false ∧
    (Instr.parsestep .w8).selects State.reset.cfg = true := by decide

/-- R73: a name is a letter, then letters, digits or `_`. -/
theorem test_name_wellFormed_refuses :
    Name.wellFormed "1a".toList = false ∧ Name.wellFormed [] = false ∧
    Name.wellFormed "a-b".toList = false ∧ Name.wellFormed "a_1".toList = true := by decide

/-- R73: an index literal is below 256; a literal for a 64-bit port is any. -/
theorem test_index_literal_refused_at_256 :
    (Operand.lit 256#64).indexWellFormed = false ∧ (Operand.lit 255#64).indexWellFormed = true ∧
    (Operand.lit 256#64).wellFormed = true ∧ (Operand.var "1".toList).wellFormed = false ∧
    (Operand.var "1".toList).indexWellFormed = false := by decide

/-- R74: the reserved names are no destinations; they can be read. -/
theorem test_reserved_destination_refused :
    (Line.assign Name.predicate 0#64).wellFormed = false ∧
    (CommandLine.bit Name.outOfRange (.lit 1#64)).wellFormed = false ∧
    (CommandLine.setbit .w8 Name.illegal (.lit 1#64)).wellFormed = false ∧
    (CommandLine.isset .w8 (.var Name.predicate) (.lit 0#64)).wellFormed = true := by decide

/-- One ill-formed term for each form of command line. -/
theorem test_commandLine_wellFormed_refuses :
    (CommandLine.getbit .w8 ['d'] (.var []) (.lit 0#64)).wellFormed = false ∧
    (CommandLine.mask ['d'] (.lit 256#64)).wellFormed = false ∧
    (CommandLine.getbits .w8 ['d'] (.var ['v']) (.lit 0#64) (.lit 256#64)).wellFormed = false ∧
    (CommandLine.setbits .w8 ['v'] (.lit 256#64) (.lit 0#64) (.lit 0#64)).wellFormed = false ∧
    (CommandLine.clrbits .w8 ['v'] (.lit 0#64) (.var ['2'])).wellFormed = false ∧
    (CommandLine.ones .w8 [] (.var ['v'])).wellFormed = false ∧
    (CommandLine.parsestep .w8 ['v'] (.var [])).wellFormed = false := by decide

/-! ### Words written out bit by bit, `wwoooo` (R60, R66) -/

theorem test_decode_single_bit :
    decodeCommand 0b000001#6 = .setbit .w8 ∧ decodeCommand 0b010001#6 = .setbit .w16 ∧
    decodeCommand 0b100001#6 = .setbit .w32 ∧ decodeCommand 0b110001#6 = .setbit .w64 ∧
    decodeCommand 0b110000#6 = .bit .w64 ∧ decodeCommand 0b010010#6 = .clrbit .w16 ∧
    decodeCommand 0b100011#6 = .tglbit .w32 ∧ decodeCommand 0b000100#6 = .isset .w8 ∧
    decodeCommand 0b110101#6 = .isnull .w64 ∧ decodeCommand 0b000110#6 = .getbit .w8 := by decide

theorem test_decode_range :
    decodeCommand 0b110111#6 = .mask .w64 ∧ decodeCommand 0b001000#6 = .getbits .w8 ∧
    decodeCommand 0b111001#6 = .setbits .w64 ∧ decodeCommand 0b011010#6 = .clrbits .w16 := by decide

theorem test_decode_aux :
    decodeCommand 0b101011#6 = .ones .w32 ∧ decodeCommand 0b111100#6 = .zeros .w64 ∧
    decodeCommand 0b011101#6 = .parsestep .w16 := by decide

theorem test_decode_reserved :
    decodeCommand 0b001110#6 = .reserved14 .w8 ∧ decodeCommand 0b111111#6 = .reserved15 .w64 := by
  decide

/-- R60: a command word is 6 bits; nothing else decodes. -/
theorem test_decodeBytes_rejects :
    decodeBytes [] = .error .noByte ∧ decodeBytes [0x40#8] = .error .notACommand ∧
    decodeBytes [0x80#8, 0x01#8] = .error .notACommand ∧
    decodeBytes [0x01#8, 0xFF#8] = .ok (.setbit .w8, [0xFF#8]) := by decide

theorem test_decodeTableWord :
    decodeTableWord 6 0x09 = some (.setbits .w8) ∧ decodeTableWord 8 0x39 = some (.setbits .w64) ∧
    decodeTableWord 6 0x0F = some (.reserved15 .w8) := by decide

/-- The step after `withFetchWord` runs that word: MASK of 0 on the ports of reset is 0. -/
theorem test_withFetchWord_runs :
    outcome (State.reset.withFetchWord 6 0x37) = some (0, false, false, false) ∧
    outcome (State.reset.withFetchWord 6 0x0E) = some (0, false, false, true) := by decide

/-! ### The worked examples of the instruction rules, `(cmd, bf, pos, len, val)` of R76 -/

/-- R110. -/
theorem test_bit :
    outcome (ports 0x30 0 0x41 0 0) = some (0x2, false, false, false) ∧
    outcome (ports 0x00 0xFF 255 3 9) = some (0x8000000000000000, false, false, false) := by decide

/-- R111. -/
theorem test_setbit :
    outcome (ports 0x01 0x00 0x03 0 0) = some (0x08, false, false, false) ∧
    outcome (ports 0x01 0x00 0x08 0 0) = some (0x00, false, false, false) := by decide

/-- R112. -/
theorem test_clrbit :
    outcome (ports 0x02 0xFF 0x07 0 0) = some (0x7F, false, false, false) ∧
    outcome (ports 0x32 0xFFFFFFFFFFFFFFFF 0x40 0 0) =
      some (0xFFFFFFFFFFFFFFFE, false, false, false) := by decide

/-- R113. -/
theorem test_tglbit :
    outcome (ports 0x03 0x0F 0x04 0 0) = some (0x1F, false, false, false) ∧
    outcome (ports 0x03 0x0F 0x0C 0 0) = some (0x0F, false, false, false) := by decide

/-- R114: bit 8 of the port lies outside the 8-bit operand. -/
theorem test_isset :
    outcome (ports 0x04 0xD6 0x01 0 0) = some (0, true, false, false) ∧
    outcome (ports 0x04 0x1D6 0x08 0 0) = some (0, false, false, false) := by decide

/-- R115. -/
theorem test_isnull :
    outcome (ports 0x05 0xD6 0x00 0 0) = some (0, true, false, false) ∧
    outcome (ports 0x05 0xD6 0x01 0 0) = some (0, false, false, false) ∧
    outcome (ports 0x05 0x1D6 0x08 0 0) = some (0, true, false, false) := by decide

/-- R116. -/
theorem test_getbit :
    outcome (ports 0x06 0xD6 0x07 0 0) = some (1, false, false, false) ∧
    outcome (ports 0x06 0xD6 0x03 0 0) = some (0, false, false, false) := by decide

/-- R150, with its corner `len` = 63. -/
theorem test_mask :
    outcome (ports 0x37 0 0 0x03 0) = some (0x7, false, false, false) ∧
    outcome (ports 0x37 0 0 0x3F 0) = some (0x7FFFFFFFFFFFFFFF, false, false, false) ∧
    outcome (ports 0x37 0 0 0x40 0) = some (0xFFFFFFFFFFFFFFFF, false, true, false) := by decide

/-- R151. -/
theorem test_getbits :
    outcome (ports 0x08 0xD6 0x01 0x04 0) = some (0xB, false, false, false) ∧
    outcome (ports 0x08 0xD6 0x04 0x08 0) = some (0xD, false, true, false) := by decide

/-- R152. -/
theorem test_setbits :
    outcome (ports 0x09 0x00 0x02 0x03 0x05) = some (0x14, false, false, false) ∧
    outcome (ports 0x09 0xFF 0x02 0x03 0xFD) = some (0xF7, false, false, false) := by decide

/-- R153. -/
theorem test_clrbits :
    outcome (ports 0x0A 0xFF 0x02 0x03 0) = some (0xE3, false, false, false) ∧
    outcome (ports 0x0A 0xFF 0x06 0x04 0) = some (0x3F, false, true, false) := by decide

/-- R141. -/
theorem test_ones :
    outcome (ports 0x0B 0xD6 0 0 0) = some (5, false, false, false) ∧
    outcome (ports 0x0B 0x1FF 0 0 0) = some (8, false, false, false) := by decide

/-- R142. -/
theorem test_zeros :
    outcome (ports 0x0C 0xD6 0 0 0) = some (3, false, false, false) ∧
    outcome (ports 0x3C 0x0 0 0 0) = some (0x40, false, false, false) := by decide

/-- R130. -/
theorem test_parsestep :
    outcome (ports 0x0D 0x05 0 0 0x31) = some (0x0B, false, false, false) ∧
    outcome (ports 0x0D 0x80 0 0 0x31) = some (0x01, false, false, false) := by decide

/-- R70: opcodes 14 and 15 always, 11 to 13 in a CORE-only block. -/
theorem test_reserved :
    outcome (ports 0x0E 0xFF 1 1 1) = some (0, false, false, true) ∧
    outcome (ports 0x3F 0xFF 1 1 1) = some (0, false, false, true) ∧
    outcome (coreOnly (ports 0x0B 0xD6 0 0 0)) = some (0, false, false, true) ∧
    outcome (coreOnly (ports 0x0C 0xD6 0 0 0)) = some (0, false, false, true) ∧
    outcome (coreOnly (ports 0x0D 0x05 0 0 0x31)) = some (0, false, false, true) := by decide

/-- R132, R133: the source's examples of ParseBits. -/
theorem test_parseBits :
    parseBits State.reset.cfg .w8 [] = 0#64 ∧
    parseBits State.reset.cfg .w8 ("1011".toList.map charCode) = 11#64 ∧
    parseBits State.reset.cfg .w64 ("00001111".toList.map charCode) = 15#64 := by decide

/-! ### Source lines (R73, R75) -/

theorem test_assemble_lines :
    assembleLine "SETBITS.16 r, 4, 7, 0x55 ; insert".toList =
      some [.command (.setbits .w16 ['r'] (.lit 4#64) (.lit 7#64) (.lit 0x55#64))] ∧
    assembleLine "BIT d, 0b101".toList = some [.command (.bit ['d'] (.lit 5#64))] ∧
    assembleLine "NULLBIT.8 v, i".toList = some [.command (.clrbit .w8 ['v'] (.var ['i']))] ∧
    assembleLine ".let v = 0xFF".toList = some [.assign ['v'] 255#64] := by decide

theorem test_assemble_parsebits :
    assembleLine "PARSEBITS.8 v, \"10\"".toList =
      some [.assign ['v'] 0#64, .command (.parsestep .w8 ['v'] (.lit 0x31#64)),
        .command (.parsestep .w8 ['v'] (.lit 0x30#64))] := by decide

/-- No width, a width where none goes, a literal of 256 for an index, a literal destination. -/
theorem test_assemble_rejects :
    assembleLine "SETBIT v, 1".toList = none ∧ assembleLine "BIT.8 v, 1".toList = none ∧
    assembleLine "SETBIT.8 v, 256".toList = none ∧ assembleLine "SETBIT.8 5, 1".toList = none ∧
    assembleLine "setbit.8 v, 1".toList = none := by decide

/-- R73: `SETBIT.8 x, 3` writes the variable back. -/
theorem test_harness_setbit :
    varAfter (harness [(Name.illegal, 0#64), (['x'], 0#64)] "SETBIT.8 x, 3") ['x'] = some 8 := by
  decide

/-- R74: a reserved command records `ILL` and the destination receives 0. -/
theorem test_harness_illegal :
    varAfter (coreOnly (harness [(Name.illegal, 0#64), (['x'], 7#64)] "ONES.8 x, x")) Name.illegal =
      some 1 ∧
    varAfter (coreOnly (harness [(Name.illegal, 0#64), (['x'], 7#64)] "ONES.8 x, x")) ['x'] =
      some 0 := by decide

/-- The fault a step ends in, if it does. -/
def stop (s : State) : Option Fault :=
  match step s with
  | .next _ => none
  | .fault f => some f
  | .refused _ => none

/-! ### Witnesses: what the hypotheses of the statements ask is met, clause by clause -/

/-- An evaluation as the statements write it, its `result`. -/
def value (i : Instr) (bf pos len val : Nat) : Nat :=
  (command State.reset.cfg i (BitVec.ofNat 64 bf) (BitVec.ofNat 8 pos) (BitVec.ofNat 8 len)
    (BitVec.ofNat 64 val)).result.toNat

/-- A harness with this listing and these variables. -/
def running (vars : Vars) (listing : List Line) : State :=
  { State.reset with vars := vars, listing := listing }

/-- `x` = 0 and `n` = 256, beside `ILL`. -/
def someVars : Vars := [(Name.illegal, 0#64), (['n'], 256#64), (['x'], 0#64)]

theorem test_hyp_StepKeepsOutputsSettled :
    Settled State.reset ∧ step State.reset = .next State.reset :=
  ⟨by unfold Settled Answers; decide, by rfl⟩

/-- A step that runs a line of the harness, from a state that meets the invariant. -/
theorem test_hyp_StepKeepsOutputsSettled_line :
    Settled (running someVars [.assign ['x'] 5#64]) ∧
    varAfter (running someVars [.assign ['x'] 5#64]) ['x'] = some 5 := by
  unfold Settled Answers; decide

theorem test_hyp_StepRunsDecodedInstruction_port :
    (ports 0x3F 0 0 0 0).listing = [] ∧
    decodeBytes [(ports 0x3F 0 0 0 0).inp.cmd.setWidth 8] = .ok (.reserved15 .w64, []) := by decide

theorem test_hyp_StepRunsDecodedInstruction_line :
    (running someVars [.assign ['x'] 5#64]).listing = .assign ['x'] 5#64 :: [] := by decide

theorem test_hyp_StepDrivesEval : State.reset.listing = [] := by decide

theorem test_hyp_EvalAnswersBitByBit :
    (ports 0x39 1 2 3 4).inp.cmd = encodeCommand (.setbits .w64) := by decide

/-- Two different states with equal inputs: the host's variables and the last outputs differ. -/
theorem test_hyp_EqualInputsEqualOutputs :
    (running someVars []).listing = [] ∧ State.reset.listing = [] ∧
    (running someVars []).cfg = State.reset.cfg ∧ (running someVars []).inp = State.reset.inp ∧
    running someVars [] ≠ State.reset := by decide

theorem test_hyp_ReservedCommandsReportIll :
    (coreOnly State.reset).cfg.hasAux = false ∧
    (Instr.clrbits .w8).selects (coreOnly State.reset).cfg = true ∧
    (Instr.zeros .w8).selects State.reset.cfg = true := by decide

theorem test_hyp_DecodeEncodeAgree :
    decodeBytes [0x00#8] = .ok (.bit .w8, []) ∧
    decodeBytes [0x3F#8, 0x40#8] = .ok (.reserved15 .w64, [0x40#8]) := by decide

/-- ISSET does not read `len` and `val`. -/
theorem test_hyp_UnusedPortsIgnored_read :
    let t := (ports 0x04 0xD6 1 2 3).inp
    let u := (ports 0x04 0xD6 1 4 5).inp
    t ≠ u ∧ t.cmd = u.cmd ∧ ((portsRead (decodeCommand t.cmd)).bf = true → t.bf = u.bf) ∧
    ((portsRead (decodeCommand t.cmd)).pos = true → t.pos = u.pos) ∧
    ((portsRead (decodeCommand t.cmd)).len = true → t.len = u.len) ∧
    ((portsRead (decodeCommand t.cmd)).val = true → t.val = u.val) := by decide

theorem test_hyp_UnusedPortsIgnored_reserved :
    let t := (ports 0x0F 1 2 3 4).inp
    let u := (ports 0x0F 5 6 7 8).inp
    t ≠ u ∧ t.cmd = u.cmd ∧ (decodeCommand t.cmd).selects State.reset.cfg = false := by decide

theorem test_hyp_AssembleAfterDisassemble :
    disassemble ['d'] ['x'] (ports 0x04 0xD6 1 9 9).inp =
      some (.isset .w8 (.var ['x']) (.lit 1#64)) ∧
    Vars.get [(['x'], 0xD6#64)] ['x'] = some (ports 0x04 0xD6 1 9 9).inp.bf ∧
    disassemble ['d'] ['x'] (ports 0x0E 0 0 0 0).inp = none := by decide

/-- R68: the ports MASK does not read, and the transaction of a line. -/
theorem test_hyp_UnusedPortsIgnored_canonical :
    portsRead (decodeCommand 0x07#6) = { len := true } ∧
    portsRead (decodeCommand 0x0D#6) = { bf := true, val := true } ∧
    canonical (ports 0x07 1 2 3 4).inp = (ports 0x37 0 0 3 0).inp ∧
    lineTransaction someVars (.setbit .w8 ['x'] (.lit 3#64)) = .ok (ports 0x01 0 3 0 0).inp := by
  decide

/-- R96 and R97 at the ends of their ranges. -/
theorem test_hyp_BitIndexCalculator_MaskGenerator :
    (1#8).toNat % 64 = (65#8).toNat % 64 ∧ Instr.tglbit .w8 ∈ singleBit .w8 ∧
    bit 63 = 0x8000000000000000#64 ∧ bit 64 = 1#64 ∧ bit 64 = bit 0 ∧ bit 63 ≠ bit 64 ∧
    mask 0 = 0#64 ∧ mask 3 = 7#64 ∧ mask 63 = 0x7FFFFFFFFFFFFFFF#64 ∧
    mask 64 = BitVec.allOnes 64 ∧ mask 255 = BitVec.allOnes 64 := by decide

/-- R94 and R95 at 63 and 64. -/
theorem test_hyp_ShiftsAreTotal :
    64 ≤ 64 ∧ shl64 3#64 63 = 0x8000000000000000#64 ∧ shl64 3#64 64 = 0#64 ∧
    shr 0xC000000000000000#64 63 = 1#64 ∧ shr 0xC000000000000000#64 64 = 0#64 := by decide

/-- R99: both ways of being 0, and the part of a run above bit 63 absent. -/
theorem test_hyp_FieldMaskBits :
    fieldMask 5 0 = 0#64 ∧ fieldMask 64 8 = 0#64 ∧ fieldMask 63 8 = 0x8000000000000000#64 ∧
    fieldMask 2 3 = 0x1C#64 := by decide

/-- ONES, ZEROS, PARSESTEP, the fold and the sum law run where `HAS_AUX` is 1; R131 where `CHAR_ONE` is
0x31 as well. -/
theorem test_hyp_hasAux :
    State.reset.cfg.hasAux = true ∧ State.reset.cfg.charOne = 0x31#64 := by decide

/-- R117 at its lowest and highest index, and through the reduction modulo 64. -/
theorem test_hyp_NarrowWidthOutcomes :
    Width.w8.bits ≤ (8#8).toNat % 64 ∧ Width.w8.bits ≤ (63#8).toNat % 64 ∧
    Width.w32.bits ≤ (96#8).toNat % 64 ∧
    value (.bit .w8) 0x1FF 8 0 0 = 0x100 ∧ value (.setbit .w8) 0x1FF 8 0 0 = 0xFF ∧
    value (.clrbit .w8) 0x1FF 8 0 0 = 0xFF ∧ value (.tglbit .w8) 0x1FF 8 0 0 = 0xFF ∧
    value (.getbit .w8) 0x1FF 8 0 0 = 0 := by decide

/-- R121: `pos` 1 and 65, and a bit above the operand. -/
theorem test_hyp_SingleBitIgnoresUnusedInputs :
    (1#8).toNat % 64 = (65#8).toNat % 64 ∧
    (0x01#64).toNat % 2 ^ Width.w8.bits = (0x101#64).toNat % 2 ^ Width.w8.bits ∧
    Instr.getbit .w8 ∈ singleBit .w8 := by decide

/-- R156: each class at a boundary of its condition. -/
theorem test_hyp_RangeClassesDecideOor :
    RangeClass.condition 8 7 1 .inRange = true ∧ RangeClass.condition 8 0 8 .inRange = true ∧
    RangeClass.condition 64 0 64 .wholeWord = true ∧ RangeClass.condition 8 7 2 .overhang = true ∧
    RangeClass.condition 8 7 63 .overhang = true ∧ RangeClass.condition 64 1 64 .length64 = true ∧
    RangeClass.condition 8 0 64 .length64 = true ∧
    RangeClass.condition 8 8 0 .startOutside = true ∧
    RangeClass.condition 8 0 65 .lengthAbove64 = true ∧
    RangeClass.condition 64 0 64 .inRange = false ∧ RangeClass.condition 8 7 2 .inRange = false := by
  decide

/-- R156: the values of classes B, F and G. -/
theorem test_hyp_RangeClassesDecideOor_values :
    value (.getbits .w64) 0xABC 0 64 0 = 0xABC ∧ value (.setbits .w64) 0xABC 0 64 0xDEF = 0xDEF ∧
    value (.clrbits .w64) 0xABC 0 64 0 = 0 ∧ value (.getbits .w8) 0xD6 8 4 0 = 0 ∧
    value (.setbits .w8) 0xD6 8 4 0xF = 0xD6 ∧ value (.getbits .w8) 0xD6 1 65 0 = 0x6B := by decide

/-- R157: in range, at the top bit of the operand, and outside. -/
theorem test_hyp_InsertExtractRoundTrip :
    RangeClass.condition 8 0 8 .inRange = true ∧ RangeClass.condition 8 2 3 .inRange = true ∧
    (7#8).toNat < Width.w8.bits ∧ Width.w8.bits ≤ (8#8).toNat ∧
    value (.getbits .w8) (value (.setbits .w8) 0 2 3 0b101) 2 3 0 = 0b101 ∧
    value (.getbits .w8) (value (.setbits .w8) 0 7 4 0b1111) 7 4 0 = 1 ∧
    value (.getbits .w8) (value (.setbits .w8) 0xFF 8 4 0b1111) 8 4 0 = 0 := by decide

/-- R159 at `pos` = 63, and SETBITS at 64, where SETBIT wraps and SETBITS does not. -/
theorem test_hyp_RangeRelations :
    (63#8).toNat ≤ 63 ∧ (1#64).getLsbD 0 = true ∧ (2#64).getLsbD 0 = false ∧
    value (.setbits .w64) 0 63 1 1 = 0x8000000000000000 ∧
    value (.setbit .w64) 0 63 0 0 = 0x8000000000000000 ∧
    value (.setbits .w64) 0 64 1 1 = 0 ∧ value (.setbit .w64) 0 64 0 0 = 1 := by decide

/-- R160: the bits just below and just above the field 2, 3. -/
theorem test_hyp_BitsOutsideFieldUnchanged :
    Instr.clrbits .w8 ∈ [Instr.setbits .w8, .clrbits .w8] ∧ 1 < Width.w8.bits ∧
    1 < (ports 0x0A 0xFF 2 3 0).inp.pos.toNat ∧
    (ports 0x0A 0xFF 2 3 0).inp.pos.toNat + (ports 0x0A 0xFF 2 3 0).inp.len.toNat ≤ 5 := by decide

/-- R161: a bit above the operand, and a bit of `val` at `len`. -/
theorem test_hyp_RangeIgnoresUnusedInputs :
    (0x01#64).toNat % 2 ^ Width.w8.bits = (0x101#64).toNat % 2 ^ Width.w8.bits ∧
    (∀ k, k < min (3#8).toNat 64 → (0x5#64).getLsbD k = (0xD#64).getLsbD k) ∧
    0x5#64 ≠ 0xD#64 := by decide

/-- R91: two operands that differ in bit 8 only. -/
theorem test_hyp_OperandAboveWidthIgnored :
    (∀ k, k < (widthOf (.ones .w8)).bits → (0x01#64).getLsbD k = (0x101#64).getLsbD k) ∧
    0x01#64 ≠ 0x101#64 := by decide

/-- R92: an in-place command and GETBITS; bit 8 of an 8-bit result. -/
theorem test_hyp_ResultsBelowWidth :
    Instr.setbit .w8 ∈ inPlace .w8 ++ [Instr.getbits .w8, .getbit .w8, .ones .w8, .zeros .w8] ∧
    Instr.zeros .w8 ∈ inPlace .w8 ++ [Instr.getbits .w8, .getbit .w8, .ones .w8, .zeros .w8] ∧
    Width.w8.bits ≤ 8 := by decide

/-- R74: the line `SETBIT.8 x, 3` with `x` assigned. -/
theorem test_hyp_CommandLineEvaluatesOnce :
    (running someVars [.command (.setbit .w8 ['x'] (.lit 3#64))]).listing =
      .command (.setbit .w8 ['x'] (.lit 3#64)) :: [] ∧
    (CommandLine.setbit .w8 ['x'] (.lit 3#64)).wellFormed = true ∧
    lineTransaction someVars (.setbit .w8 ['x'] (.lit 3#64)) = .ok (ports 0x01 0 3 0 0).inp := by
  decide

/-- R74: `.let x = 5`, and the variable `n` beside it. -/
theorem test_hyp_LetAssignsVariable :
    (running someVars [.assign ['x'] 5#64]).listing = .assign ['x'] 5#64 :: [] ∧
    Name.destination ['x'] = true ∧ ['n'] ≠ ['x'] ∧
    varAfter (running someVars [.assign ['x'] 5#64]) ['n'] = some 256 := by decide

/-- R73: a line with a destination and `OOR`, a predicate, and a variable neither writes. -/
theorem test_hyp_HarnessWritesBack :
    (CommandLine.getbits .w8 ['d'] (.var ['x']) (.lit 1#64) (.lit 4#64)).wellFormed = true ∧
    lineDestination (.getbits .w8 ['d'] (.var ['x']) (.lit 1#64) (.lit 4#64)) = some ['d'] ∧
    lineReportsRange (.getbits .w8 ['d'] (.var ['x']) (.lit 1#64) (.lit 4#64)) = true ∧
    (CommandLine.isset .w8 (.var ['x']) (.lit 1#64)).wellFormed = true ∧
    lineTests (.isset .w8 (.var ['x']) (.lit 1#64)) = true ∧
    lineDestination (.isset .w8 (.var ['x']) (.lit 1#64)) ≠ some ['x'] ∧
    Name.reserved ['x'] = false := by decide

/-- R31, R74: `SETBIT.8 y, 3` with `y` unassigned stops. -/
theorem test_hyp_ListingStopsOnlyOnErrors_unassigned :
    (CommandLine.setbit .w8 ['y'] (.lit 3#64)).wellFormed = true ∧ someVars.get ['y'] = none ∧
    stop (running someVars [.command (.setbit .w8 ['y'] (.lit 3#64))]) =
      some (.unassignedVariable ['y']) := by decide

/-- Log entry 6: `SETBIT.8 x, n` with `n` = 256, the least value that does not fit its port. -/
theorem test_hyp_ListingStopsOnlyOnErrors_wide :
    (CommandLine.setbit .w8 ['x'] (.var ['n'])).wellFormed = true ∧ someVars.get ['x'] ≠ none ∧
    someVars.get ['n'] = some 256#64 ∧ 256 ≤ (256#64).toNat ∧
    stop (running someVars [.command (.setbit .w8 ['x'] (.var ['n']))]) =
      some (.indexTooWide 256#64) := by decide

/-- R73: a line with a literal the assembler rejects. -/
theorem test_hyp_ListingStopsOnlyOnErrors_rejected :
    (Line.command (.setbit .w8 ['x'] (.lit 256#64))).wellFormed = false ∧
    stop (running someVars [.command (.setbit .w8 ['x'] (.lit 256#64))]) = some .rejectedLine := by
  decide

/-- R75: the lines of `PARSEBITS.8 x, "1"`, with a line after them. -/
theorem test_hyp_ParsebitsLinesRunFold :
    Name.destination ['x'] = true ∧
    (running someVars [.assign ['x'] 0#64, .command (.parsestep .w8 ['x'] (.lit 0x31#64)),
      .assign ['x'] 9#64]).listing =
      expandParsebits .w8 ['x'] "1".toList ++ [.assign ['x'] 9#64] := by decide

end Sys2Proof.Tests
end

/-! PROOFS. The outputs an instruction drives, bit by bit (spec 10_state.md R24; the bitwise sentences
of R70, R110 to R116, R130, R141, R142, R150 to R153). -/

namespace Sys2Proof.Machine

open Sys2Proof.Safety

/-- The four outputs that the meaning of `i` drives for the parameters and inputs of the block:
`eval` (R24) with the instruction already decoded. -/
def instrOutputs (cfg : Config) (i : Instr) (t : Transaction) : Outputs :=
  answerOutputs (exec i (present cfg t))

theorem exec_eq_next_instrOutputs (i : Instr) (s : State) :
    exec i s = .next { s with out := instrOutputs s.cfg i s.inp } := exec_eq_drive i s

theorem eval_eq_instrOutputs (cfg : Config) (t : Transaction) :
    eval cfg t = instrOutputs cfg (decodeCommand t.cmd) t := eval_eq cfg t

/-! ### The outputs of each instruction as its rule gives them -/

section PerInstruction

variable (cfg : Config) (w : Width) (t : Transaction)

@[simp] theorem instrOutputs_bit : instrOutputs cfg (.bit w) t = { result := posBit t } := rfl

@[simp] theorem instrOutputs_setbit :
    instrOutputs cfg (.setbit w) t = { result := trunc w.bits (bfW w t ||| posBit t) } := rfl

@[simp] theorem instrOutputs_clrbit :
    instrOutputs cfg (.clrbit w) t =
      { result := trunc w.bits (bfW w t &&& not64 (posBit t)) } := rfl

@[simp] theorem instrOutputs_tglbit :
    instrOutputs cfg (.tglbit w) t = { result := trunc w.bits (bfW w t ^^^ posBit t) } := rfl

@[simp] theorem instrOutputs_isset :
    instrOutputs cfg (.isset w) t = { flag := bitIsSet w t } := rfl

@[simp] theorem instrOutputs_isnull :
    instrOutputs cfg (.isnull w) t = { flag := !bitIsSet w t } := rfl

@[simp] theorem instrOutputs_getbit :
    instrOutputs cfg (.getbit w) t = { result := bitValue (bitIsSet w t) } := rfl

@[simp] theorem instrOutputs_mask :
    instrOutputs cfg (.mask w) t = { result := mask t.len.toNat, oor := maskOor t } := rfl

@[simp] theorem instrOutputs_getbits :
    instrOutputs cfg (.getbits w) t =
      { result := shr (bfW w t) t.pos.toNat &&& mask t.len.toNat, oor := rangeOor w t } := rfl

@[simp] theorem instrOutputs_setbits :
    instrOutputs cfg (.setbits w) t =
      { result := trunc w.bits ((bfW w t &&& not64 (field t)) |||
          shl64 (t.val &&& mask t.len.toNat) t.pos.toNat)
        oor := rangeOor w t } := rfl

@[simp] theorem instrOutputs_clrbits :
    instrOutputs cfg (.clrbits w) t =
      { result := trunc w.bits (bfW w t &&& not64 (field t)), oor := rangeOor w t } := rfl

@[simp] theorem instrOutputs_ones :
    instrOutputs cfg (.ones w) t =
      auxOutputs cfg { result := BitVec.ofNat 64 (popcount w.bits (bfW w t)) } := rfl

@[simp] theorem instrOutputs_zeros :
    instrOutputs cfg (.zeros w) t =
      auxOutputs cfg { result := BitVec.ofNat 64 (w.bits - popcount w.bits (bfW w t)) } := rfl

@[simp] theorem instrOutputs_parsestep :
    instrOutputs cfg (.parsestep w) t =
      auxOutputs cfg
        { result := trunc w.bits (shl64 (bfW w t) 1 ||| bitValue (charIsOne cfg t)) } := rfl

@[simp] theorem instrOutputs_reserved14 :
    instrOutputs cfg (.reserved14 w) t = reservedOutputs := rfl

@[simp] theorem instrOutputs_reserved15 :
    instrOutputs cfg (.reserved15 w) t = reservedOutputs := rfl

end PerInstruction

/-! ### What the parts of these outputs hold -/

@[simp] theorem reservedOutputs_result : reservedOutputs.result = 0#64 := rfl
@[simp] theorem reservedOutputs_flag : reservedOutputs.flag = false := rfl
@[simp] theorem reservedOutputs_oor : reservedOutputs.oor = false := rfl
@[simp] theorem reservedOutputs_ill : reservedOutputs.ill = true := rfl

section AuxOutputs

variable (cfg : Config) (o : Outputs)

theorem getLsbD_auxOutputs_result (k : Nat) :
    (auxOutputs cfg o).result.getLsbD k = (cfg.hasAux && o.result.getLsbD k) := by
  cases h : cfg.hasAux <;> simp [auxOutputs, h]

@[simp] theorem auxOutputs_flag : (auxOutputs cfg o).flag = (cfg.hasAux && o.flag) := by
  cases h : cfg.hasAux <;> simp [auxOutputs, h]

@[simp] theorem auxOutputs_oor : (auxOutputs cfg o).oor = (cfg.hasAux && o.oor) := by
  cases h : cfg.hasAux <;> simp [auxOutputs, h]

@[simp] theorem auxOutputs_ill : (auxOutputs cfg o).ill = (!cfg.hasAux || o.ill) := by
  cases h : cfg.hasAux <;> simp [auxOutputs, h]

end AuxOutputs

theorem getLsbD_posBit (t : Transaction) (k : Nat) :
    (posBit t).getLsbD k = decide (k = t.pos.toNat % 64) := getLsbD_bit _ k

theorem getLsbD_field (t : Transaction) (k : Nat) :
    (field t).getLsbD k =
      (decide (k < 64) && (decide (t.pos.toNat ≤ k) && decide (k < t.pos.toNat + t.len.toNat))) :=
  getLsbD_fieldMask _ _ k

/-- The model's count over a list of positions is the specification's recursion (R140). -/
theorem popcount_eq_onesBelow (n : Nat) (v : Word) : popcount n v = onesBelow n v := by
  induction n with
  | zero => rfl
  | succ n ih => rw [popcount_succ, ih, onesBelow]

theorem popcount_bfW (w : Width) (t : Transaction) :
    popcount w.bits (bfW w t) = onesBelow w.bits t.bf := by
  rw [bfW, popcount_trunc, popcount_eq_onesBelow]

/-- The short form of `OorRange` (R155): a length above 64 already overhangs every operand. -/
theorem oorRange_eq_short (w : Width) (pos len : Nat) :
    oorRange w.bits pos len =
      (decide (w.bits < pos + len) || (decide (pos = w.bits) && decide (len = 0))) := by
  have := width_bits_le w
  rw [oorRange, Bool.eq_iff_iff]
  simp only [Bool.or_eq_true, Bool.and_eq_true, decide_eq_true_eq]
  omega

/-! ### The bits of `result`, command by command -/

section ResultBits

variable (cfg : Config) (w : Width) (t : Transaction) (k : Nat)

theorem getLsbD_result_setbit :
    (instrOutputs cfg (.setbit w) t).result.getLsbD k = resultBit cfg (.setbit w) t k := by
  simp only [instrOutputs_setbit, resultBit, getLsbD_trunc, BitVec.getLsbD_or, getLsbD_bfW,
    getLsbD_posBit]
  by_cases hk : k < w.bits <;> simp [hk, Bool.or_comm]

theorem getLsbD_result_clrbit :
    (instrOutputs cfg (.clrbit w) t).result.getLsbD k = resultBit cfg (.clrbit w) t k := by
  simp only [instrOutputs_clrbit, resultBit, getLsbD_trunc, BitVec.getLsbD_and, getLsbD_not64,
    getLsbD_bfW, getLsbD_posBit]
  by_cases hk : k < w.bits
  · simp [hk, hk.trans_le (width_bits_le w), Bool.and_comm]
  · simp [hk]

theorem getLsbD_result_tglbit :
    (instrOutputs cfg (.tglbit w) t).result.getLsbD k = resultBit cfg (.tglbit w) t k := by
  simp only [instrOutputs_tglbit, resultBit, getLsbD_trunc, BitVec.getLsbD_xor, getLsbD_bfW,
    getLsbD_posBit]
  by_cases hk : k < w.bits <;> simp [hk, Bool.xor_comm]

theorem getLsbD_result_getbit :
    (instrOutputs cfg (.getbit w) t).result.getLsbD k = resultBit cfg (.getbit w) t k := by
  rw [instrOutputs_getbit, getLsbD_bitValue, bitIsSet_eq, resultBit]

theorem getLsbD_result_mask (hk : k < 64) :
    (instrOutputs cfg (.mask w) t).result.getLsbD k = resultBit cfg (.mask w) t k := by
  rw [instrOutputs_mask, getLsbD_mask, resultBit, decide_eq_true hk, Bool.and_true]

theorem getLsbD_result_getbits (hk : k < 64) :
    (instrOutputs cfg (.getbits w) t).result.getLsbD k = resultBit cfg (.getbits w) t k := by
  simp only [instrOutputs_getbits, resultBit, BitVec.getLsbD_and, getLsbD_shr, getLsbD_bfW,
    getLsbD_mask, hk, decide_true, Bool.and_true]
  rw [Bool.and_comm, Bool.and_assoc]

/-- Inside the field the old bits are cleared and bit `k - pos` of `val` is put in; outside it the
mask on `val` lets nothing through (R152). -/
theorem getLsbD_result_setbits :
    (instrOutputs cfg (.setbits w) t).result.getLsbD k = resultBit cfg (.setbits w) t k := by
  simp only [instrOutputs_setbits, resultBit, getLsbD_trunc, BitVec.getLsbD_or, BitVec.getLsbD_and,
    getLsbD_not64, getLsbD_shl64, getLsbD_bfW, getLsbD_field, getLsbD_mask]
  by_cases hk : k < w.bits
  · have h64 : k < 64 := hk.trans_le (width_bits_le w)
    have hsub : k - t.pos.toNat < 64 := by omega
    by_cases hp : t.pos.toNat ≤ k
    · have hlen : k - t.pos.toNat < t.len.toNat ↔ k < t.pos.toNat + t.len.toNat := by omega
      by_cases hl : k < t.pos.toNat + t.len.toNat <;> simp [hk, h64, hsub, hp, hl, hlen]
    · simp [hk, h64, hp]
  · simp [hk]

theorem getLsbD_result_clrbits :
    (instrOutputs cfg (.clrbits w) t).result.getLsbD k = resultBit cfg (.clrbits w) t k := by
  simp only [instrOutputs_clrbits, resultBit, getLsbD_trunc, BitVec.getLsbD_and, getLsbD_not64,
    getLsbD_bfW, getLsbD_field]
  by_cases hk : k < w.bits
  · simp [hk, hk.trans_le (width_bits_le w), Bool.and_comm]
  · simp [hk]

theorem getLsbD_result_ones (hk : k < 64) :
    (instrOutputs cfg (.ones w) t).result.getLsbD k = resultBit cfg (.ones w) t k := by
  rw [instrOutputs_ones, getLsbD_auxOutputs_result, popcount_bfW, BitVec.getLsbD_ofNat,
    decide_eq_true hk, Bool.true_and, resultBit]

theorem getLsbD_result_zeros (hk : k < 64) :
    (instrOutputs cfg (.zeros w) t).result.getLsbD k = resultBit cfg (.zeros w) t k := by
  rw [instrOutputs_zeros, getLsbD_auxOutputs_result, popcount_bfW, BitVec.getLsbD_ofNat,
    decide_eq_true hk, Bool.true_and, resultBit]

/-- Bit 0 is the character, the shift has emptied it; every other bit comes from the one below
(R130). -/
theorem getLsbD_result_parsestep :
    (instrOutputs cfg (.parsestep w) t).result.getLsbD k = resultBit cfg (.parsestep w) t k := by
  simp only [instrOutputs_parsestep, resultBit, getLsbD_auxOutputs_result, getLsbD_trunc,
    BitVec.getLsbD_or, getLsbD_shl64, getLsbD_bfW, getLsbD_bitValue, charIsOne_eq]
  by_cases hk : k < w.bits
  · have h64 : k < 64 := hk.trans_le (width_bits_le w)
    by_cases h0 : k = 0
    · subst h0; simp [hk]
    · have h1 : 1 ≤ k := Nat.one_le_iff_ne_zero.mpr h0
      have hpred : k - 1 < w.bits := by omega
      simp [hk, h64, h0, h1, hpred]
  · simp [hk]

end ResultBits

/-! ### The four outputs of every command -/

theorem getLsbD_instrOutputs_result (cfg : Config) (i : Instr) (t : Transaction) (k : Nat)
    (hk : k < 64) : (instrOutputs cfg i t).result.getLsbD k = resultBit cfg i t k := by
  cases i with
  | bit w => exact getLsbD_posBit t k
  | setbit w => exact getLsbD_result_setbit cfg w t k
  | clrbit w => exact getLsbD_result_clrbit cfg w t k
  | tglbit w => exact getLsbD_result_tglbit cfg w t k
  | isset w => exact BitVec.getLsbD_zero
  | isnull w => exact BitVec.getLsbD_zero
  | getbit w => exact getLsbD_result_getbit cfg w t k
  | mask w => exact getLsbD_result_mask cfg w t k hk
  | getbits w => exact getLsbD_result_getbits cfg w t k hk
  | setbits w => exact getLsbD_result_setbits cfg w t k
  | clrbits w => exact getLsbD_result_clrbits cfg w t k
  | ones w => exact getLsbD_result_ones cfg w t k hk
  | zeros w => exact getLsbD_result_zeros cfg w t k hk
  | parsestep w => exact getLsbD_result_parsestep cfg w t k
  | reserved14 w => exact BitVec.getLsbD_zero
  | reserved15 w => exact BitVec.getLsbD_zero

/-- Only the two predicates drive `flag` (R100, R114, R115). -/
theorem instrOutputs_flag (cfg : Config) (i : Instr) (t : Transaction) :
    (instrOutputs cfg i t).flag = flagBit i t := by
  cases i with
  | isset w => exact bitIsSet_eq w t
  | isnull w => exact congrArg (!·) (bitIsSet_eq w t)
  | _ => simp [flagBit]

/-- Only MASK and the range commands drive `oor` (R100, R150, R155). -/
theorem instrOutputs_oor (cfg : Config) (i : Instr) (t : Transaction) :
    (instrOutputs cfg i t).oor = oorBit i t := by
  cases i with
  | getbits w | setbits w | clrbits w => exact oorRange_eq_short w _ _
  | mask w => rfl
  | _ => simp [oorBit]

/-- `ill` reports that the command selects no operation in this configuration (R69, R70). -/
theorem instrOutputs_ill (cfg : Config) (i : Instr) (t : Transaction) :
    (instrOutputs cfg i t).ill = !i.selects cfg := by
  cases i <;> simp [Instr.selects]

/-- The outputs of the decoded command are the ones the bitwise sentences say. -/
theorem answers_instrOutputs (cfg : Config) (t : Transaction) :
    Answers cfg t (instrOutputs cfg (decodeCommand t.cmd) t) :=
  ⟨getLsbD_instrOutputs_result cfg _ t, instrOutputs_flag cfg _ t, instrOutputs_oor cfg _ t,
    instrOutputs_ill cfg _ t⟩

/-- Settles O5: `exec` only drives the outputs, and those of the command on port `cmd` answer its
inputs bit by bit. -/
theorem evalAnswersBitByBit : Obligations.EvalAnswersBitByBit := by
  unfold Obligations.EvalAnswersBitByBit
  intro i s hcmd
  refine ⟨instrOutputs s.cfg i s.inp, exec_eq_next_instrOutputs i s, ?_⟩
  have hdecode : decodeCommand s.inp.cmd = i := by rw [hcmd, decodeCommand_encodeCommand]
  exact hdecode ▸ answers_instrOutputs s.cfg s.inp

end Sys2Proof.Machine

/-! PROOFS. What one step does to the machine (spec 10_state.md R24, R27, R30; 30_encoding.md R74), and
what a command line leaves in the host's variables (R28, R73). -/

namespace Sys2Proof.Machine

open Sys2Proof.Safety

/-! ### An evaluation -/

/-- The outputs of `eval` are the ones the bitwise sentences of the instruction rules say (R24). -/
theorem answers_eval (cfg : Config) (t : Transaction) : Answers cfg t (eval cfg t) :=
  eval_eq_instrOutputs cfg t ▸ answers_instrOutputs cfg t

theorem exec_fetch_eq_next_eval (s : State) :
    exec (fetch s) s = .next { s with out := eval s.cfg s.inp } :=
  exec_eq_drive (fetch s) s

theorem step_of_listing_nil {s : State} (h : s.listing = []) : step s = exec (fetch s) s := by
  rw [step, h]

theorem step_of_listing_cons {s : State} {l : Line} {rest : List Line}
    (h : s.listing = l :: rest) : step s = runLine l { s with listing := rest } := by
  rw [step, h]

/-! ### A line of a listing -/

/-- What an accepted command line leaves once its transaction is formed: the ports carry it and its
outputs, and the host has written back (R74). -/
def State.afterCommand (s : State) (c : CommandLine) (t : Transaction) : State :=
  { s with
    inp := t
    out := eval s.cfg t
    vars := lineEffect (recordIllegal s.vars (eval s.cfg t)) (eval s.cfg t) c }

theorem runLine_of_not_wellFormed {l : Line} (s : State) (h : l.wellFormed = false) :
    runLine l s = .fault .rejectedLine := by
  simp [runLine, h]

theorem runLine_assign {v : Name} (x : Word) (s : State) (h : v.destination = true) :
    runLine (.assign v x) s = .next { s with vars := s.vars.set v x } := by
  simp [runLine, Line.wellFormed, h]

theorem runLine_command_of_error {c : CommandLine} {s : State} {f : Fault}
    (hc : c.wellFormed = true) (ht : lineTransaction s.vars c = .error f) :
    runLine (.command c) s = .fault f := by
  simp [runLine, Line.wellFormed, hc, ht]

theorem runLine_command {c : CommandLine} {s : State} {t : Transaction}
    (hc : c.wellFormed = true) (ht : lineTransaction s.vars c = .ok t) :
    runLine (.command c) s = .next (s.afterCommand c t) := by
  have hexec := exec_fetch_eq_next_eval { s with inp := t }
  rw [fetch] at hexec
  simp [runLine, Line.wellFormed, hc, ht, hexec, writeBack, State.afterCommand]

/-- A line that completes is an accepted `.let`, or an accepted command whose operands could be read. -/
theorem runLine_eq_next {l : Line} {s s' : State} (h : runLine l s = .next s') :
    (∃ v x, l = .assign v x ∧ v.destination = true ∧ s' = { s with vars := s.vars.set v x }) ∨
    ∃ c t, l = .command c ∧ c.wellFormed = true ∧ lineTransaction s.vars c = .ok t ∧
      s' = s.afterCommand c t := by
  cases hl : l.wellFormed with
  | false => rw [runLine_of_not_wellFormed s hl] at h; cases h
  | true =>
    cases l with
    | assign v x =>
      rw [runLine_assign x s hl] at h
      cases h
      exact .inl ⟨v, x, rfl, hl, rfl⟩
    | command c =>
      cases ht : lineTransaction s.vars c with
      | error f => rw [runLine_command_of_error hl ht] at h; cases h
      | ok t =>
        rw [runLine_command hl ht] at h
        cases h
        exact .inr ⟨c, t, rfl, hl, ht, rfl⟩

/-! ### The invariant -/

theorem settled_drive_eval {s : State} (hvars : s.vars.wf = true) :
    Settled { s with out := eval s.cfg s.inp } :=
  ⟨answers_eval s.cfg s.inp, hvars⟩

theorem settled_afterCommand {s : State} (c : CommandLine) (t : Transaction)
    (hvars : s.vars.wf = true) : Settled (s.afterCommand c t) :=
  ⟨answers_eval s.cfg t, wf_lineEffect _ _ c (wf_recordIllegal _ _ hvars)⟩

theorem settled_of_runLine_eq_next {l : Line} {s s' : State} (hs : Settled s)
    (h : runLine l s = .next s') : Settled s' := by
  obtain ⟨hout, hvars⟩ := hs
  obtain ⟨v, x, -, -, rfl⟩ | ⟨c, t, -, -, -, rfl⟩ := runLine_eq_next h
  · exact ⟨hout, Vars.wf_set _ v x hvars⟩
  · exact settled_afterCommand c t hvars

/-- Settles O2: an evaluation drives `eval` of its inputs, `.let` leaves the ports as they were, a
command line evaluates the inputs it drives, and every write to the variables keeps their form. -/
theorem stepKeepsOutputsSettled : Obligations.StepKeepsOutputsSettled := by
  unfold Obligations.StepKeepsOutputsSettled
  intro s t hs hstep
  cases hlist : s.listing with
  | nil =>
    rw [step_of_listing_nil hlist, exec_fetch_eq_next_eval] at hstep
    cases hstep
    obtain ⟨-, hvars⟩ := hs
    exact settled_drive_eval hvars
  | cons l rest =>
    rw [step_of_listing_cons hlist] at hstep
    have hrest : Settled { s with listing := rest } := hs
    exact settled_of_runLine_eq_next hrest hstep

/-- Settles O4: with no listing a step is `exec` of the fetched command, which drives `eval`. -/
theorem stepDrivesEval : Obligations.StepDrivesEval := by
  unfold Obligations.StepDrivesEval
  intro s hlist
  rw [step_of_listing_nil hlist, exec_fetch_eq_next_eval]

/-- Settles O6: both steps drive `eval` of the parameters and inputs, which are equal. -/
theorem equalInputsEqualOutputs : Obligations.EqualInputsEqualOutputs := by
  unfold Obligations.EqualInputsEqualOutputs
  intro s s' hlist hlist' hcfg hinp
  exact ⟨_, _, stepDrivesEval s hlist, stepDrivesEval s' hlist', congrArg₂ eval hcfg hinp⟩

/-! ### The write-back of a command line -/

theorem Vars.get_set (h : Vars) (n m : Name) (x : Word) :
    (h.set n x).get m = if m = n then some x else h.get m := by
  split
  case isTrue hmn => rw [hmn, Vars.get_set_same]
  case isFalse hmn => exact Vars.get_set_other h n m x hmn

theorem get_recordIllegal (h : Vars) (o : Outputs) (n : Name) :
    (recordIllegal h o).get n =
      if o.ill = true ∧ n = Name.illegal then some 1#64 else h.get n := by
  cases hill : o.ill <;> simp [recordIllegal, hill, Vars.get_set]

/-- The harness effect column of R73's table, read variable by variable: `OOR` is written last. -/
theorem get_lineEffect (h : Vars) (o : Outputs) (c : CommandLine) (n : Name) :
    (lineEffect h o c).get n =
      if lineReportsRange c = true ∧ n = Name.outOfRange then some (bitValue o.oor)
      else if lineTests c = true ∧ n = Name.predicate then some (bitValue o.flag)
      else if lineDestination c = some n then some o.result
      else h.get n := by
  cases c with
  | isset | isnull =>
    simp [lineEffect, storeFlag, lineReportsRange, lineTests, lineDestination, Vars.get_set]
  | mask | getbits | setbits | clrbits =>
    simp [lineEffect, storeRange, storeResult, lineReportsRange, lineTests, lineDestination,
      Vars.get_set, eq_comm]
  | bit | setbit | clrbit | tglbit | getbit | ones | zeros | parsestep =>
    simp [lineEffect, storeResult, lineReportsRange, lineTests, lineDestination, Vars.get_set,
      eq_comm]

theorem Name.reserved_eq_false_iff (n : Name) :
    n.reserved = false ↔ n ≠ Name.predicate ∧ n ≠ Name.outOfRange ∧ n ≠ Name.illegal := by
  simp [Name.reserved, and_assoc]

theorem Name.reserved_eq_false_of_destination {n : Name} (h : n.destination = true) :
    n.reserved = false := by
  simp only [Name.destination, Bool.and_eq_true, Bool.not_eq_true'] at h
  exact h.2

/-- The assembler checks the destination of every command line that has one (R73). -/
theorem destination_of_lineDestination {c : CommandLine} {d : Name} (hc : c.wellFormed = true)
    (hd : lineDestination c = some d) : d.destination = true := by
  cases c with
  | isset | isnull => cases hd
  | _ =>
    cases hd
    simp only [CommandLine.wellFormed, Bool.and_eq_true] at hc
    simp only [hc]

/-- No accepted command line has `F`, `OOR` or `ILL` as its destination (R73, R74). -/
theorem lineDestination_ne_reserved {c : CommandLine} {d : Name} (hc : c.wellFormed = true)
    (hd : lineDestination c = some d) :
    d ≠ Name.predicate ∧ d ≠ Name.outOfRange ∧ d ≠ Name.illegal :=
  (Name.reserved_eq_false_iff d).mp
    (Name.reserved_eq_false_of_destination (destination_of_lineDestination hc hd))

/-- Settles O54: the destination is none of the reserved names, and these are three names, so no
write hides another. -/
theorem harnessWritesBack : Obligations.HarnessWritesBack := by
  unfold Obligations.HarnessWritesBack
  intro h o c hc
  have hFO : Name.predicate ≠ Name.outOfRange := by decide
  have hFI : Name.predicate ≠ Name.illegal := by decide
  have hOI : Name.outOfRange ≠ Name.illegal := by decide
  have hF : lineDestination c ≠ some Name.predicate := fun e =>
    (lineDestination_ne_reserved hc e).1 rfl
  have hO : lineDestination c ≠ some Name.outOfRange := fun e =>
    (lineDestination_ne_reserved hc e).2.1 rfl
  have hI : lineDestination c ≠ some Name.illegal := fun e =>
    (lineDestination_ne_reserved hc e).2.2 rfl
  simp only [get_lineEffect, get_recordIllegal]
  refine ⟨fun d hd => ?_, ?_, ?_, ?_, fun n hn hres => ?_⟩
  · obtain ⟨hdF, hdO, -⟩ := lineDestination_ne_reserved hc hd
    simp [hd, hdF, hdO]
  · simp [hF, hFO, hFI]
  · simp [hO, hFO.symm, hOI]
  · simp [hI, hFI.symm, hOI.symm]
  · obtain ⟨hnF, hnO, hnI⟩ := (Name.reserved_eq_false_iff n).mp hres
    simp [hn, hnF, hnO, hnI]

end Sys2Proof.Machine

/-! PROOFS. Which instruction a step runs (spec 10_state.md R21; 20_memory.md R51; 30_encoding.md
R74). -/

namespace Sys2Proof.Machine

/-- A command put in the low 6 bits of a byte is read back, and the bytes after it remain. -/
@[simp] theorem decodeBytes_setWidth_cons (cmd : Command) (rest : List (BitVec 8)) :
    decodeBytes (cmd.setWidth 8 :: rest) = .ok (decodeCommand cmd, rest) := by
  have hlow : (cmd.setWidth 8).toNat < 64 := by
    rw [BitVec.toNat_setWidth_of_le (by decide)]
    exact cmd.isLt
  have hback : (cmd.setWidth 8).setWidth 6 = cmd := by
    rw [BitVec.setWidth_setWidth_of_le _ (by decide), BitVec.setWidth_eq]
  rw [decodeBytes, if_pos hlow, hback]

/-- The byte form reads port `cmd` as `fetch` does. -/
theorem fetch_eq_of_decodeBytes {s : State} {i : Instr} {rest : List (BitVec 8)}
    (h : decodeBytes [s.inp.cmd.setWidth 8] = .ok (i, rest)) : fetch s = i := by
  rw [decodeBytes_setWidth_cons] at h
  cases h
  rfl

/-- Settles O3: with no listing, the command a step fetches is the one the byte on port `cmd` decodes
to; with a listing, a step is its first line by definition. -/
theorem stepRunsDecodedInstruction : Obligations.StepRunsDecodedInstruction := by
  unfold Obligations.StepRunsDecodedInstruction
  refine ⟨fun s i hlist hdecode => ?_, fun s l rest hlist => step_of_listing_cons hlist⟩
  rw [step_of_listing_nil hlist, fetch_eq_of_decodeBytes hdecode]

end Sys2Proof.Machine

/-! PROOFS. The command word: which fields it has, and that decoding and encoding lose nothing
(spec 30_encoding.md R60 to R62, R66, R69). -/

namespace Sys2Proof

/-! ### The fields of a command -/

theorem toNat_opField (c : Command) : (opField c).toNat = c.toNat % 16 := by
  simp [opField, BitVec.extractLsb'_toNat]

theorem toNat_widthField (c : Command) : (widthField c).toNat = c.toNat / 16 := by
  have hc : c.toNat < 64 := c.isLt
  simp only [widthField, BitVec.extractLsb'_toNat, Nat.shiftRight_eq_div_pow]
  omega

theorem code_widthOfField : ∀ w : BitVec 2, (widthOfField w).code = w.toNat := by decide

theorem Width.code_lt (w : Width) : w.code < 4 := by cases w <;> decide

theorem opcode_lt (i : Instr) : opcode i < 16 := by cases i <;> simp [opcode]

/-- Every row but the last is named by its number; the last takes the one number that is left. -/
theorem opcode_decodeCommand (c : Command) : opcode (decodeCommand c) = (opField c).toNat := by
  have hop : (opField c).toNat < 16 := (opField c).isLt
  unfold decodeCommand
  split
  case h_16 =>
    simp only [imp_false] at *
    simp only [opcode]
    omega
  all_goals simp only [opcode, *]

theorem widthOf_decodeCommand (c : Command) :
    widthOf (decodeCommand c) = widthOfField (widthField c) := by
  unfold decodeCommand
  split <;> rfl

/-! ### Encoding and decoding a command -/

theorem toNat_encodeCommand (i : Instr) :
    (encodeCommand i).toNat = 16 * (widthOf i).code + opcode i := by
  have hw := (widthOf i).code_lt
  have hop := opcode_lt i
  rw [encodeCommand, BitVec.toNat_ofNat]
  omega

/-- The two fields make up the whole command. -/
theorem encodeCommand_decodeCommand (c : Command) : encodeCommand (decodeCommand c) = c := by
  apply BitVec.eq_of_toNat_eq
  rw [toNat_encodeCommand, widthOf_decodeCommand, code_widthOfField, toNat_widthField,
    opcode_decodeCommand, toNat_opField]
  omega

/-- Settles O10: both fields fit their places, and together they are the whole command. -/
theorem commandIsWidthAndOpcode : Obligations.CommandIsWidthAndOpcode :=
  ⟨toNat_encodeCommand, encodeCommand_decodeCommand⟩

/-- Settles O11: the decoder computes each of the twelve. -/
theorem writtenWordsDecode : Obligations.WrittenWordsDecode := by
  unfold Obligations.WrittenWordsDecode
  decide

/-! ### The byte form -/

/-- A byte list that decodes begins with a byte that is some command; the bytes after it are the
rest. -/
theorem exists_command_of_decodeBytes {bs rest : List (BitVec 8)} {i : Instr}
    (h : decodeBytes bs = .ok (i, rest)) :
    ∃ c : Command, bs = c.setWidth 8 :: rest ∧ decodeCommand c = i := by
  cases bs with
  | nil => cases h
  | cons b bs =>
    rw [decodeBytes] at h
    split at h
    case isTrue hb =>
      cases h
      refine ⟨b.setWidth 6, ?_, rfl⟩
      have hback : (b.setWidth 6).setWidth 8 = b := by
        apply BitVec.eq_of_toNat_eq
        simp only [BitVec.toNat_setWidth]
        omega
      rw [hback]
    case isFalse => cases h

/-- Settles O9: the encoding is the command in one byte, and a byte that decodes is the command it
carries. -/
theorem decodeEncodeAgree : Obligations.DecodeEncodeAgree := by
  unfold Obligations.DecodeEncodeAgree
  refine ⟨fun i rest => ?_, fun bs i rest h => ?_⟩
  · rw [encode, List.singleton_append, Machine.decodeBytes_setWidth_cons,
      Machine.decodeCommand_encodeCommand]
  · obtain ⟨c, rfl, rfl⟩ := exists_command_of_decodeBytes h
    rw [encode, encodeCommand_decodeCommand, List.singleton_append]

end Sys2Proof

/-! PROOFS. Which commands are reserved, and which inputs an instruction ignores (spec
30_encoding.md R65, R68, R70; 41_single_bit.md R121; 44_range.md R161). -/

namespace Sys2Proof.Machine

open Sys2Proof.Safety

/-! ### Reserved commands -/

/-- A command that selects no operation drives 0, 0, 0 and `ill` = 1 (R70). -/
theorem instrOutputs_of_not_selects {cfg : Config} {i : Instr} (t : Transaction)
    (h : i.selects cfg = false) : instrOutputs cfg i t = reservedOutputs := by
  cases i with
  | ones | zeros | parsestep =>
    have haux : cfg.hasAux = false := h
    simp [auxOutputs_of_not_hasAux haux]
  | reserved14 | reserved15 => rfl
  | _ => cases h

theorem exec_of_not_selects {i : Instr} {s : State} (h : i.selects s.cfg = false) :
    exec i s = .next { s with out := reservedOutputs } := by
  rw [exec_eq_next_instrOutputs, instrOutputs_of_not_selects _ h]

/-- Settles O8: the commands listed select no operation, and `ill` is 0 for one that does. -/
theorem reservedCommandsReportIll : Obligations.ReservedCommandsReportIll := by
  unfold Obligations.ReservedCommandsReportIll
  intro w s
  refine ⟨exec_of_not_selects rfl, exec_of_not_selects rfl, fun haux i hi => ?_, fun i hsel => ?_⟩
  · apply exec_of_not_selects
    simp only [List.mem_cons, List.not_mem_nil, or_false] at hi
    obtain rfl | rfl | rfl := hi <;> exact haux
  · refine ⟨_, exec_eq_next_instrOutputs i s, ?_⟩
    rw [instrOutputs_ill, hsel, Bool.not_true]

/-! ### The inputs an instruction ignores -/

theorem command_eq_instrOutputs (cfg : Config) (i : Instr) (bf : Word) (pos len : Index)
    (val : Word) :
    command cfg i bf pos len val = instrOutputs cfg i (transaction i bf pos len val) :=
  eval_transaction cfg i bf pos len val

/-- The outputs depend on no port that R65 does not list for the instruction (R68). -/
theorem instrOutputs_congr (cfg : Config) {i : Instr} {t u : Transaction}
    (hbf : (portsRead i).bf = true → t.bf = u.bf)
    (hpos : (portsRead i).pos = true → t.pos = u.pos)
    (hlen : (portsRead i).len = true → t.len = u.len)
    (hval : (portsRead i).val = true → t.val = u.val) :
    instrOutputs cfg i t = instrOutputs cfg i u := by
  cases i with
  | bit => simp [posBit, hpos rfl]
  | setbit | clrbit | tglbit => simp [bfW, posBit, hbf rfl, hpos rfl]
  | isset | isnull | getbit => simp [bitIsSet, bfW, posBit, hbf rfl, hpos rfl]
  | mask => simp [maskOor, hlen rfl]
  | getbits => simp [bfW, rangeOor, hbf rfl, hpos rfl, hlen rfl]
  | setbits => simp [bfW, field, rangeOor, hbf rfl, hpos rfl, hlen rfl, hval rfl]
  | clrbits => simp [bfW, field, rangeOor, hbf rfl, hpos rfl, hlen rfl]
  | ones | zeros => simp [bfW, hbf rfl]
  | parsestep => simp [bfW, charIsOne, hbf rfl, hval rfl]
  | reserved14 | reserved15 => rfl

/-- The operand depends on the low W bits of port `bf` only (R91). -/
theorem bfW_congr {w : Width} {t u : Transaction}
    (h : t.bf.toNat % 2 ^ w.bits = u.bf.toNat % 2 ^ w.bits) : bfW w t = bfW w u := by
  apply BitVec.eq_of_toNat_eq
  rw [bfW, bfW, toNat_trunc, toNat_trunc, h]

/-- The one-hot mask depends on the index modulo 64 only (R96). -/
theorem posBit_congr {t u : Transaction} (h : t.pos.toNat % 64 = u.pos.toNat % 64) :
    posBit t = posBit u := by
  apply BitVec.eq_of_toNat_eq
  rw [posBit, posBit, toNat_bit, toNat_bit, h]

/-- A single-bit instruction sees its inputs through the operand and the one-hot mask (R121). -/
theorem instrOutputs_congr_of_mem_singleBit (cfg : Config) {w : Width} {i : Instr}
    {t u : Transaction} (hi : i ∈ singleBit w) (hbf : bfW w t = bfW w u)
    (hpos : posBit t = posBit u) : instrOutputs cfg i t = instrOutputs cfg i u := by
  simp only [singleBit, List.mem_cons, List.not_mem_nil, or_false] at hi
  obtain rfl | rfl | rfl | rfl | rfl | rfl | rfl := hi <;> simp [bitIsSet, hbf, hpos]

/-- Settles O39: the two evaluations have the same operand and the same one-hot mask. -/
theorem singleBitIgnoresUnusedInputs : Obligations.SingleBitIgnoresUnusedInputs := by
  unfold Obligations.SingleBitIgnoresUnusedInputs
  intro cfg w bf bf' pos pos' len len' val val' hpos hbf i hi
  rw [command_eq_instrOutputs, command_eq_instrOutputs]
  exact instrOutputs_congr_of_mem_singleBit cfg hi (bfW_congr hbf) (posBit_congr hpos)

/-- The mask on `val` lets only the bits below `len` through (R152). -/
theorem and_mask_congr {x y : Word} {n : Nat}
    (h : ∀ k, k < min n 64 → x.getLsbD k = y.getLsbD k) : x &&& mask n = y &&& mask n := by
  apply BitVec.eq_of_getLsbD_eq
  intro k hk
  rw [BitVec.getLsbD_and, BitVec.getLsbD_and, getLsbD_mask]
  by_cases hn : k < n
  · rw [h k (lt_min hn hk)]
  · simp [hn]

/-- Settles O46: a range command sees `bf` through the operand, and `val` through the mask of
`len`. -/
theorem rangeIgnoresUnusedInputs : Obligations.RangeIgnoresUnusedInputs := by
  unfold Obligations.RangeIgnoresUnusedInputs
  intro cfg w w' bf bf' pos pos' len val val'
  simp only [command_eq_instrOutputs]
  refine ⟨by simp [maskOor], fun hbf => ?_⟩
  have hop (i : Instr) (v v' : Word) :
      bfW w (transaction i bf pos len v) = bfW w (transaction i bf' pos len v') := bfW_congr hbf
  refine ⟨?_, ?_, fun hval => ?_⟩
  · simp [rangeOor, hop _ val val']
  · simp [rangeOor, field, hop _ val val']
  · simp [rangeOor, field, hop _ val val', and_mask_congr hval]

end Sys2Proof.Machine

/-! PROOFS. Canonical transactions, and the lines that form them (spec 30_encoding.md R67, R68, R73,
R77). -/

namespace Sys2Proof.Machine

/-! ### The canonical form -/

@[simp] theorem canonicalInstr_canonicalInstr (i : Instr) :
    canonicalInstr (canonicalInstr i) = canonicalInstr i := by cases i <;> rfl

@[simp] theorem portsRead_canonicalInstr (i : Instr) :
    portsRead (canonicalInstr i) = portsRead i := by cases i <;> rfl

/-- The `w` of BIT and MASK has no role (R67). -/
@[simp] theorem instrOutputs_canonicalInstr (cfg : Config) (i : Instr) (t : Transaction) :
    instrOutputs cfg (canonicalInstr i) t = instrOutputs cfg i t := by cases i <;> rfl

@[simp] theorem canonical_cmd (t : Transaction) :
    (canonical t).cmd = encodeCommand (canonicalInstr (decodeCommand t.cmd)) := rfl
@[simp] theorem canonical_bf (t : Transaction) :
    (canonical t).bf = if (portsRead (decodeCommand t.cmd)).bf then t.bf else 0#64 := rfl
@[simp] theorem canonical_pos (t : Transaction) :
    (canonical t).pos = if (portsRead (decodeCommand t.cmd)).pos then t.pos else 0#8 := rfl
@[simp] theorem canonical_len (t : Transaction) :
    (canonical t).len = if (portsRead (decodeCommand t.cmd)).len then t.len else 0#8 := rfl
@[simp] theorem canonical_val (t : Transaction) :
    (canonical t).val = if (portsRead (decodeCommand t.cmd)).val then t.val else 0#64 := rfl

theorem eval_canonical (cfg : Config) (t : Transaction) : eval cfg (canonical t) = eval cfg t := by
  rw [eval_eq_instrOutputs, eval_eq_instrOutputs, canonical_cmd, decodeCommand_encodeCommand,
    instrOutputs_canonicalInstr]
  apply instrOutputs_congr <;> intro hread <;> simp [hread]

/-- A transaction of a canonical instruction whose unread ports are 0 is canonical. -/
theorem canonical_transaction_eq_self {i : Instr} {bf : Word} {pos len : Index} {val : Word}
    (hbf : (portsRead i).bf = false → bf = 0#64) (hpos : (portsRead i).pos = false → pos = 0#8)
    (hlen : (portsRead i).len = false → len = 0#8)
    (hval : (portsRead i).val = false → val = 0#64) :
    canonical (transaction (canonicalInstr i) bf pos len val) =
      transaction (canonicalInstr i) bf pos len val := by
  simp only [canonical, transaction_cmd, decodeCommand_encodeCommand, portsRead_canonicalInstr,
    canonicalInstr_canonicalInstr, transaction_bf, transaction_pos, transaction_len,
    transaction_val]
  congr 1 <;> split <;> simp_all

theorem canonical_canonical (t : Transaction) : canonical (canonical t) = canonical t := by
  apply canonical_transaction_eq_self <;> intro hunread <;> simp [hunread]

/-- Settles O13: the canonical form keeps every port that is read and the row of the command, and
its own unread ports are 0. -/
theorem canonicalSameOutputs : Obligations.CanonicalSameOutputs := fun cfg t =>
  ⟨eval_canonical cfg t, canonical_canonical t⟩

/-! ### The transaction of a line -/

section Operands

variable (h : Vars)

@[simp] theorem operandValue_lit (x : Word) : operandValue h (.lit x) = .ok x := rfl

theorem operandValue_var {n : Name} {x : Word} (hx : h.get n = some x) :
    operandValue h (.var n) = .ok x := by
  rw [operandValue, hx]

@[simp] theorem operandValue_unusedPort : operandValue h unusedPort = .ok 0#64 := rfl

/-- The literal a disassembler prints for an index port is the value of the port again. -/
@[simp] theorem indexValue_lit_setWidth (x : Index) :
    indexValue h (.lit (x.setWidth 64)) = .ok x := by
  have hx : (x.setWidth 64).toNat < 2 ^ Config.idxW := by
    rw [BitVec.toNat_setWidth_of_le (by decide)]
    exact x.isLt
  have hback : (x.setWidth 64).setWidth 8 = x := by
    rw [BitVec.setWidth_setWidth_of_le _ (by decide), BitVec.setWidth_eq]
  simp only [indexValue, operandValue_lit, if_pos hx, hback]

@[simp] theorem indexValue_unusedPort : indexValue h unusedPort = .ok 0#8 :=
  indexValue_lit_setWidth h 0#8

end Operands

/-- A transaction is formed exactly when all four operands have a value for their port. -/
theorem formTransaction_eq_ok_iff {h : Vars} {i : Instr} {bf pos len val : Operand}
    {t : Transaction} :
    formTransaction h i bf pos len val = .ok t ↔
      ∃ b p l v, operandValue h bf = .ok b ∧ indexValue h pos = .ok p ∧
        indexValue h len = .ok l ∧ operandValue h val = .ok v ∧
        transaction (canonicalInstr i) b p l v = t := by
  unfold formTransaction
  split <;> simp_all

/-- A line that leaves every port its instruction does not read unmentioned forms a canonical
transaction (R68). -/
theorem canonical_of_formTransaction {h : Vars} {i : Instr} {bf pos len val : Operand}
    {t : Transaction} (ht : formTransaction h i bf pos len val = .ok t)
    (hbf : (portsRead i).bf = false → bf = unusedPort)
    (hpos : (portsRead i).pos = false → pos = unusedPort)
    (hlen : (portsRead i).len = false → len = unusedPort)
    (hval : (portsRead i).val = false → val = unusedPort) : canonical t = t := by
  obtain ⟨b, p, l, v, hb, hp, hl, hv, rfl⟩ := formTransaction_eq_ok_iff.mp ht
  apply canonical_transaction_eq_self <;> intro hunread
  · simpa [hbf hunread, @eq_comm _ 0#64] using hb
  · simpa [hpos hunread, @eq_comm _ 0#8] using hp
  · simpa [hlen hunread, @eq_comm _ 0#8] using hl
  · simpa [hval hunread, @eq_comm _ 0#64] using hv

/-- The assembler emits canonical transactions only (R68, R73). -/
theorem canonical_of_lineTransaction {h : Vars} {c : CommandLine} {t : Transaction}
    (ht : lineTransaction h c = .ok t) : canonical t = t := by
  cases c <;> exact canonical_of_formTransaction ht (by simp [portsRead]) (by simp [portsRead])
    (by simp [portsRead]) (by simp [portsRead])

/-- Settles O12: unread ports do not reach the outputs, no port reaches those of a reserved command,
and the unread ports of the canonical form and of an assembled line are 0. -/
theorem unusedPortsIgnored : Obligations.UnusedPortsIgnored := by
  unfold Obligations.UnusedPortsIgnored
  refine ⟨fun cfg t u hcmd hbf hpos hlen hval => ?_, fun cfg t u hcmd hsel => ?_, fun t => ?_,
    fun h c t => canonical_of_lineTransaction⟩
  · rw [eval_eq_instrOutputs, eval_eq_instrOutputs, ← hcmd]
    exact instrOutputs_congr cfg hbf hpos hlen hval
  · rw [eval_eq_instrOutputs, eval_eq_instrOutputs, ← hcmd, instrOutputs_of_not_selects t hsel,
      instrOutputs_of_not_selects u hsel]
  · refine ⟨?_, ?_, ?_, ?_⟩ <;> intro hunread <;> simp [hunread]

/-! ### The line a disassembler prints -/

/-- Only the two reserved opcodes have no spelling (R73). -/
theorem disassemble_eq_none_iff (d v : Name) (t : Transaction) :
    disassemble d v t = none ↔ 14 ≤ opcode (decodeCommand t.cmd) := by
  unfold disassemble
  cases decodeCommand t.cmd <;> simp [opcode]

/-- The line mentions exactly the ports the command reads: the bitfield by its variable, the others
by literals (R77). -/
theorem lineTransaction_of_disassemble {d v : Name} {t : Transaction} {c : CommandLine} (h : Vars)
    (hc : disassemble d v t = some c) :
    lineTransaction h c =
      formTransaction h (decodeCommand t.cmd)
        (if (portsRead (decodeCommand t.cmd)).bf then .var v else unusedPort)
        (if (portsRead (decodeCommand t.cmd)).pos then .lit (t.pos.setWidth 64) else unusedPort)
        (if (portsRead (decodeCommand t.cmd)).len then .lit (t.len.setWidth 64) else unusedPort)
        (if (portsRead (decodeCommand t.cmd)).val then .lit t.val else unusedPort) := by
  unfold disassemble at hc
  cases hi : decodeCommand t.cmd <;> simp only [hi] at hc <;> cases hc <;> rfl

theorem lineTransaction_eq_canonical {d v : Name} {t : Transaction} {c : CommandLine} {h : Vars}
    (hc : disassemble d v t = some c) (hv : h.get v = some t.bf) :
    lineTransaction h c = .ok (canonical t) := by
  rw [lineTransaction_of_disassemble h hc, formTransaction_eq_ok_iff]
  refine ⟨_, _, _, _, ?_, ?_, ?_, ?_, rfl⟩
  · split <;> simp [operandValue_var h hv]
  · split <;> simp
  · split <;> simp
  · split <;> simp

/-- Settles O14: the printed line mentions the ports that are read, with their values, and the
others become 0. -/
theorem assembleAfterDisassemble : Obligations.AssembleAfterDisassemble := fun d v t =>
  ⟨disassemble_eq_none_iff d v t, fun _ _ => lineTransaction_eq_canonical⟩

end Sys2Proof.Machine

/-! PROOFS. A step that runs a line, from the state before to the state after (spec 30_encoding.md
R74). -/

namespace Sys2Proof.Machine

/-- Settles O52: the step runs the first line, which leaves the evaluated and written-back state. -/
theorem commandLineEvaluatesOnce : Obligations.CommandLineEvaluatesOnce := by
  unfold Obligations.CommandLineEvaluatesOnce
  intro s c rest t hlist hc ht
  rw [step_of_listing_cons hlist]
  exact runLine_command hc ht

/-- Settles O53: the line writes its variable and nothing else. -/
theorem letAssignsVariable : Obligations.LetAssignsVariable := by
  unfold Obligations.LetAssignsVariable
  intro s v x rest hlist hv
  refine ⟨s.vars.set v x, ?_, Vars.get_set_same s.vars v x,
    fun n hn => Vars.get_set_other s.vars v n x hn⟩
  rw [step_of_listing_cons hlist]
  exact runLine_assign x _ hv

end Sys2Proof.Machine

/-! PROOFS. The primitives over all naturals (spec 40_primitives.md R94 to R99). -/

namespace Sys2Proof.Machine

/-! ### The bit-index calculator -/

theorem bit_eq_bit_iff (i j : Nat) : bit i = bit j ↔ i % 64 = j % 64 := by
  rw [← BitVec.toNat_inj, toNat_bit, toNat_bit]
  exact Nat.pow_right_inj (by decide)

theorem bit_mod (i : Nat) : bit (i % 64) = bit i := (bit_eq_bit_iff _ _).mpr (Nat.mod_mod i 64)

theorem bit_ne_zero (i : Nat) : bit i ≠ 0#64 := by
  rw [Ne, ← BitVec.toNat_inj, toNat_bit]
  exact (Nat.two_pow_pos _).ne'

/-- Settles O15: the mask is the power of two its index names modulo 64, and the index reaches a
single-bit command through the mask only. -/
theorem bitIndexCalculator : Obligations.BitIndexCalculator := by
  unfold Obligations.BitIndexCalculator
  refine ⟨fun i => ⟨toNat_bit i, fun k _ => getLsbD_bit i k, (bit_mod i).symm, bit_ne_zero i,
    bit_eq_bit_iff i⟩, ?_⟩
  intro cfg w bf pos pos' len val hpos
  exact singleBitIgnoresUnusedInputs cfg w bf bf pos pos' len len val val hpos rfl

/-! ### The mask generator and the shifts -/

/-- Settles O16: a position below 64 is one up to 63. -/
theorem maskGenerator : Obligations.MaskGenerator := by
  unfold Obligations.MaskGenerator
  refine fun n => ⟨toNat_mask n, fun k => ?_⟩
  rw [getLsbD_mask, decide_eq_decide.mpr (Nat.lt_succ_iff : k < 64 ↔ k ≤ 63)]

/-- Settles O17: as arithmetic and bit by bit by the laws of the shifts; a right shift reads nothing
from position 64 up. -/
theorem shiftsAreTotal : Obligations.ShiftsAreTotal := by
  unfold Obligations.ShiftsAreTotal
  refine fun x s => ⟨toNat_shl64 x s, fun k hk => ?_, toNat_shr x s, fun k _ => ?_, fun hs =>
    ⟨BitVec.shiftLeft_eq_zero hs, BitVec.ushiftRight_eq_zero hs⟩⟩
  · rw [getLsbD_shl64, decide_eq_true hk, Bool.true_and]
  · rw [getLsbD_shr, Nat.add_comm s k]
    by_cases hlt : k + s < 64
    · rw [decide_eq_true (Nat.le_of_lt_succ hlt), Bool.true_and]
    · rw [BitVec.getLsbD_of_ge x _ (Nat.not_lt.mp hlt), Bool.and_false]

/-! ### The field mask -/

theorem fieldMask_eq_zero {pos len : Nat} (h : len = 0 ∨ 64 ≤ pos) : fieldMask pos len = 0#64 := by
  apply BitVec.eq_of_getLsbD_eq
  intro k hk
  have hout : ¬(pos ≤ k ∧ k < pos + len) := by omega
  rw [getLsbD_fieldMask, ← Bool.decide_and, decide_eq_false hout, Bool.and_false,
    BitVec.getLsbD_zero]

/-- Settles O18: bit by bit by the law of the field mask; no position below 64 lies in an empty field
or in one that starts at 64. -/
theorem fieldMaskBits : Obligations.FieldMaskBits := by
  unfold Obligations.FieldMaskBits
  refine fun pos len => ⟨fun k hk => ?_, fieldMask_eq_zero⟩
  rw [getLsbD_fieldMask, decide_eq_true hk, Bool.true_and]

end Sys2Proof.Machine

/-! PROOFS. The operand and the results against the width W (spec 40_primitives.md R91, R92). -/

namespace Sys2Proof.Machine

open Sys2Proof.Safety

/-! ### The operand -/

theorem trunc_congr {n : Nat} {x y : Word} (h : ∀ k, k < n → x.getLsbD k = y.getLsbD k) :
    trunc n x = trunc n y := by
  apply BitVec.eq_of_getLsbD_eq
  intro k _
  rw [getLsbD_trunc, getLsbD_trunc]
  by_cases hk : k < n
  · rw [h k hk]
  · rw [decide_eq_false hk, Bool.false_and, Bool.false_and]

/-- Every instruction sees port `bf` through its W-bit operand only (R91). -/
theorem instrOutputs_congr_of_bfW (cfg : Config) {i : Instr} {t u : Transaction}
    (hbf : bfW (widthOf i) t = bfW (widthOf i) u) (hpos : t.pos = u.pos) (hlen : t.len = u.len)
    (hval : t.val = u.val) : instrOutputs cfg i t = instrOutputs cfg i u := by
  cases i with
  | bit => simp [posBit, hpos]
  | mask => simp [maskOor, hlen]
  | reserved14 | reserved15 => rfl
  | _ =>
    simp only [widthOf] at hbf
    simp [bitIsSet, posBit, field, rangeOor, charIsOne, hbf, hpos, hlen, hval]

/-- Settles O47: operands that agree below W are one operand after truncation. -/
theorem operandAboveWidthIgnored : Obligations.OperandAboveWidthIgnored := by
  unfold Obligations.OperandAboveWidthIgnored
  refine ⟨fun w t => toNat_trunc w.bits t.bf, ?_⟩
  intro cfg i bf bf' pos len val hbits
  rw [command_eq_instrOutputs, command_eq_instrOutputs]
  exact instrOutputs_congr_of_bfW cfg (trunc_congr hbits) rfl rfl rfl

/-! ### The results -/

theorem onesBelow_le (n : Nat) (v : Word) : onesBelow n v ≤ n :=
  popcount_eq_onesBelow n v ▸ popcount_le n v

/-- A count of at most W has no bit from position W up. -/
theorem testBit_eq_false_of_le {m n k : Nat} (hm : m ≤ n) (hk : n ≤ k) : m.testBit k = false :=
  Nat.testBit_lt_two_pow ((hm.trans hk).trans_lt Nat.lt_two_pow_self)

/-- An in-place result is truncated to the width (R92). -/
theorem resultBit_eq_false_of_mem_inPlace (cfg : Config) {w : Width} {i : Instr} (t : Transaction)
    {k : Nat} (hi : i ∈ inPlace w) (hk : w.bits ≤ k) : resultBit cfg i t k = false := by
  have hin : ¬ k < w.bits := Nat.not_lt.mpr hk
  simp only [inPlace, List.mem_cons, List.not_mem_nil, or_false] at hi
  obtain rfl | rfl | rfl | rfl | rfl | rfl := hi <;> simp [resultBit, hin]

/-- A field and a bit are read from the operand, and a count is at most W, which is below 2^W
(R92). -/
theorem resultBit_eq_false_of_reads_operand (cfg : Config) {w : Width} {i : Instr} (t : Transaction)
    {k : Nat} (hi : i ∈ [Instr.getbits w, .getbit w, .ones w, .zeros w]) (hk : w.bits ≤ k) :
    resultBit cfg i t k = false := by
  simp only [List.mem_cons, List.not_mem_nil, or_false] at hi
  obtain rfl | rfl | rfl | rfl := hi
  · have hfield : ¬ t.pos.toNat + k < w.bits := by omega
    simp [resultBit, hfield]
  · have hk0 : k ≠ 0 := by have := width_bits_ge w; omega
    simp [resultBit, hk0]
  · simp [resultBit, testBit_eq_false_of_le (onesBelow_le w.bits t.bf) hk]
  · simp [resultBit, testBit_eq_false_of_le (Nat.sub_le w.bits (onesBelow w.bits t.bf)) hk]

/-- Settles O48: no bit of the result stands at or above position W, so it is below 2^W. -/
theorem resultsBelowWidth : Obligations.ResultsBelowWidth := by
  unfold Obligations.ResultsBelowWidth
  intro w s i hi
  have hhigh (k : Nat) (hk : w.bits ≤ k) :
      (instrOutputs s.cfg i s.inp).result.getLsbD k = false := by
    by_cases h64 : k < 64
    · rw [getLsbD_instrOutputs_result _ _ _ k h64]
      obtain hplace | hread := List.mem_append.mp hi
      · exact resultBit_eq_false_of_mem_inPlace s.cfg s.inp hplace hk
      · exact resultBit_eq_false_of_reads_operand s.cfg s.inp hread hk
    · exact BitVec.getLsbD_of_ge _ k (Nat.not_lt.mp h64)
  exact ⟨_, exec_eq_next_instrOutputs i s, Nat.lt_pow_two_of_testBit _ hhigh, hhigh⟩

end Sys2Proof.Machine

/-! PROOFS. Single-bit commands whose effective index is outside the operand, and those run twice
(spec 41_single_bit.md R117, R119). -/

namespace Sys2Proof.Machine

open Sys2Proof.Safety

section SingleBit

variable (cfg : Config) (w : Width) (t : Transaction)

/-! ### An index at or above the width -/

theorem bitIsSet_of_width_le (h : w.bits ≤ t.pos.toNat % 64) : bitIsSet w t = false := by
  rw [bitIsSet_eq, decide_eq_false (Nat.not_lt.mpr h), Bool.false_and]

/-- The bit SETBIT, CLRBIT and TGLBIT would change is cut off: the operand comes back (R117). -/
theorem result_eq_trunc_of_width_le {i : Instr} (hi : i ∈ [Instr.setbit w, .clrbit w, .tglbit w])
    (h : w.bits ≤ t.pos.toNat % 64) : (instrOutputs cfg i t).result = trunc w.bits t.bf := by
  apply BitVec.eq_of_getLsbD_eq
  intro k hk64
  rw [getLsbD_instrOutputs_result cfg i t k hk64, getLsbD_trunc]
  simp only [List.mem_cons, List.not_mem_nil, or_false] at hi
  by_cases hk : k < w.bits
  · have hne : k ≠ t.pos.toNat % 64 := (hk.trans_le h).ne
    obtain rfl | rfl | rfl := hi <;> simp [resultBit, hne]
  · obtain rfl | rfl | rfl := hi <;> simp [resultBit, hk]

theorem oor_eq_false_of_mem_singleBit {i : Instr} (hi : i ∈ singleBit w) :
    (instrOutputs cfg i t).oor = false := by
  simp only [singleBit, List.mem_cons, List.not_mem_nil, or_false] at hi
  obtain rfl | rfl | rfl | rfl | rfl | rfl | rfl := hi <;> rfl

end SingleBit

/-- Settles O35: the mask of BIT is not cut; the bit the others name is none of the operand's. -/
theorem narrowWidthOutcomes : Obligations.NarrowWidthOutcomes := by
  unfold Obligations.NarrowWidthOutcomes
  refine ⟨fun pos => Nat.mod_lt _ (by decide), ?_⟩
  intro cfg w bf pos len val h
  simp only [command_eq_instrOutputs]
  have hclear (i : Instr) : bitIsSet w (transaction i bf pos len val) = false :=
    bitIsSet_of_width_le w _ h
  refine ⟨toNat_bit pos.toNat, result_eq_trunc_of_width_le cfg w _ (by simp) h,
    result_eq_trunc_of_width_le cfg w _ (by simp) h,
    result_eq_trunc_of_width_le cfg w _ (by simp) h, ?_, ?_, ?_,
    fun i hi => oor_eq_false_of_mem_singleBit cfg w _ hi⟩
  · exact hclear _
  · simp [hclear]
  · simp [hclear, bitValue]

/-! ### The same command twice -/

section Twice

variable (cfg : Config) (w : Width) (bf : Word) (pos len : Index) (val : Word)

theorem getLsbD_command_result {i : Instr} {k : Nat} (hk : k < 64) :
    (command cfg i bf pos len val).result.getLsbD k =
      resultBit cfg i (transaction i bf pos len val) k := by
  rw [command_eq_instrOutputs, getLsbD_instrOutputs_result _ _ _ k hk]

/-- The named bit is forced, whatever it was, and the others are kept (R119). -/
theorem result_idempotent {i : Instr} (hi : i ∈ [Instr.setbit w, .clrbit w]) :
    (command cfg i (command cfg i bf pos len val).result pos len val).result =
      (command cfg i bf pos len val).result := by
  apply BitVec.eq_of_getLsbD_eq
  intro k hk
  simp only [getLsbD_command_result _ _ _ _ _ hk]
  simp only [List.mem_cons, List.not_mem_nil, or_false] at hi
  by_cases he : k = pos.toNat % 64
  · obtain rfl | rfl := hi <;> simp [resultBit, he]
  · obtain rfl | rfl := hi <;> simp [resultBit, getLsbD_command_result _ _ _ _ _ hk, he]

/-- The named bit is flipped back, the others are kept (R119). -/
theorem tglbit_tglbit :
    (command cfg (.tglbit w) (command cfg (.tglbit w) bf pos len val).result pos len val).result =
      trunc w.bits bf := by
  apply BitVec.eq_of_getLsbD_eq
  intro k hk
  simp only [getLsbD_command_result _ _ _ _ _ hk, getLsbD_trunc, resultBit, transaction_bf,
    transaction_pos]
  by_cases he : k = pos.toNat % 64
  · by_cases hw : pos.toNat % 64 < w.bits <;> simp [he, hw]
  · simp [he]

/-- TGLBIT leaves the operand alone exactly when the index is outside it; inside, bit e differs. -/
theorem trunc_eq_tglbit_iff :
    trunc w.bits bf = (command cfg (.tglbit w) bf pos len val).result ↔
      w.bits ≤ pos.toNat % 64 := by
  constructor
  · intro heq
    by_contra hin
    have he : pos.toNat % 64 < 64 := Nat.mod_lt _ (by decide)
    have hbit := congrArg (·.getLsbD (pos.toNat % 64)) heq
    simp [getLsbD_command_result _ _ _ _ _ he, getLsbD_trunc, resultBit, Nat.not_le.mp hin] at hbit
  · intro hout
    rw [command_eq_instrOutputs]
    exact (result_eq_trunc_of_width_le cfg w (transaction _ bf pos len val) (by simp) hout).symm

end Twice

/-- Settles O37: bit by bit; TGLBIT twice is the operand, which TGLBIT once leaves alone exactly
outside the operand. -/
theorem idempotentSetClearInvolutiveToggle : Obligations.IdempotentSetClearInvolutiveToggle := by
  unfold Obligations.IdempotentSetClearInvolutiveToggle
  intro cfg w bf pos len val set clear toggle
  have hinvol : toggle (toggle bf) = trunc w.bits bf := tglbit_tglbit cfg w bf pos len val
  refine ⟨result_idempotent cfg w bf pos len val (by simp),
    result_idempotent cfg w bf pos len val (by simp), hinvol, ?_⟩
  rw [hinvol]
  exact trunc_eq_tglbit_iff cfg w bf pos len val

end Sys2Proof.Machine

/-! PROOFS. What each single-bit command answers: its command word, its outputs as a number and bit
by bit, and the frame (spec 41_single_bit.md R110 to R116). -/

namespace Sys2Proof.Machine

open Sys2Proof.Safety

/-! ### The operand, the one-hot mask and the test on naturals -/

theorem toNat_trunc_eq_natTrunc (n : Nat) (x : Word) : (trunc n x).toNat = natTrunc n x.toNat :=
  toNat_trunc n x

theorem toNat_not64_eq_natNot64 (x : Word) : (not64 x).toNat = natNot64 x.toNat := toNat_not64 x

section OnNaturals

variable (w : Width) (t : Transaction)

theorem toNat_bfW : (bfW w t).toNat = natTrunc w.bits t.bf.toNat := toNat_trunc w.bits t.bf

theorem toNat_posBit : (posBit t).toNat = natBit t.pos.toNat := toNat_bit t.pos.toNat

theorem bitIsSet_iff_and_ne_zero :
    bitIsSet w t = true ↔ natTrunc w.bits t.bf.toNat &&& natBit t.pos.toNat ≠ 0 := by
  rw [bitIsSet, bne_iff_ne, Ne, ← BitVec.toNat_inj, BitVec.toNat_and, toNat_bfW, toNat_posBit,
    BitVec.toNat_zero]

theorem not_bitIsSet_iff_and_eq_zero :
    (!bitIsSet w t) = true ↔ natTrunc w.bits t.bf.toNat &&& natBit t.pos.toNat = 0 := by
  rw [Bool.not_eq_true', ← Bool.not_eq_true, bitIsSet_iff_and_ne_zero, not_not]

theorem bitIsSet_eq_ite : bitIsSet w t =
    if t.pos.toNat % 64 < w.bits then t.bf.getLsbD (t.pos.toNat % 64) else false := by
  rw [bitIsSet_eq]
  split <;> simp [*]

/-- Shifting the operand right by the effective index brings the tested bit to position 0 (R116). -/
theorem toNat_bitIsSet : (bitIsSet w t).toNat =
    natShr (natTrunc w.bits t.bf.toNat) (t.pos.toNat % 64) &&& 1 := by
  rw [bitIsSet_eq, ← getLsbD_bfW, BitVec.getLsbD, Nat.toNat_testBit, toNat_bfW, Nat.and_one_is_mod,
    natShr]

end OnNaturals

/-! ### The commands -/

/-- Every command word decodes to its row, and the row completes in every state by driving its
outputs (R24, R66): what is left to say of an instruction is what its outputs are. -/
theorem decodes_and_completes (i : Instr) (s : State) {P : Outputs → Prop}
    (h : P (instrOutputs s.cfg i s.inp)) :
    decodeCommand (encodeCommand i) = i ∧ ∃ o, exec i s = .next { s with out := o } ∧ P o :=
  ⟨decodeCommand_encodeCommand i, _, exec_eq_next_instrOutputs i s, h⟩

/-- Settles O21: the result is the one-hot mask itself. -/
theorem bitGivesOneHotMask : Obligations.BitGivesOneHotMask := by
  unfold Obligations.BitGivesOneHotMask
  intro w s
  exact decodes_and_completes (.bit w) s ⟨rfl, rfl, rfl, toNat_posBit s.inp⟩

/-- Settles O22: truncation, `|` and the two operands are the same on words and on naturals; bit by
bit, bit e is forced to 1. -/
theorem setbitSetsOneBit : Obligations.SetbitSetsOneBit := by
  unfold Obligations.SetbitSetsOneBit
  intro w s
  refine decodes_and_completes (.setbit w) s ⟨rfl, rfl, rfl, ?_, fun k _ => ?_⟩
  · rw [instrOutputs_setbit, toNat_trunc_eq_natTrunc, BitVec.toNat_or, toNat_bfW, toNat_posBit]
  · rw [getLsbD_result_setbit, resultBit]
    by_cases he : k = s.inp.pos.toNat % 64 <;> simp [he]

/-- Settles O23: the alias is CLRBIT's line; the operations agree on words and on naturals; bit by
bit, bit e is forced to 0. -/
theorem clrbitClearsOneBit : Obligations.ClrbitClearsOneBit := by
  unfold Obligations.ClrbitClearsOneBit
  refine ⟨fun _ _ _ => rfl, fun w s => ?_⟩
  refine decodes_and_completes (.clrbit w) s ⟨rfl, rfl, rfl, ?_, fun k _ => ?_⟩
  · rw [instrOutputs_clrbit, toNat_trunc_eq_natTrunc, BitVec.toNat_and, toNat_bfW,
      toNat_not64_eq_natNot64, toNat_posBit]
  · rw [getLsbD_result_clrbit, resultBit]
    by_cases he : k = s.inp.pos.toNat % 64 <;> simp [he]

/-- Settles O24: the operations agree on words and on naturals; bit by bit, bit e is negated. -/
theorem tglbitFlipsOneBit : Obligations.TglbitFlipsOneBit := by
  unfold Obligations.TglbitFlipsOneBit
  intro w s
  refine decodes_and_completes (.tglbit w) s ⟨rfl, rfl, rfl, ?_, fun k _ => ?_⟩
  · rw [instrOutputs_tglbit, toNat_trunc_eq_natTrunc, BitVec.toNat_xor, toNat_bfW, toNat_posBit]
  · rw [getLsbD_result_tglbit, resultBit]
    by_cases he : k = s.inp.pos.toNat % 64 <;> simp [he]

/-- Settles O25: the flag is the test of the bit. -/
theorem issetTestsOneBit : Obligations.IssetTestsOneBit := by
  unfold Obligations.IssetTestsOneBit
  intro w s
  exact decodes_and_completes (.isset w) s ⟨rfl, rfl, rfl, bitIsSet_iff_and_ne_zero w s.inp,
    bitIsSet_eq_ite w s.inp⟩

/-- Settles O26: the flag is the complement of the test of the bit. -/
theorem isnullTestsOneBit : Obligations.IsnullTestsOneBit := by
  unfold Obligations.IsnullTestsOneBit
  intro w s
  refine decodes_and_completes (.isnull w) s ⟨rfl, rfl, rfl,
    not_bitIsSet_iff_and_eq_zero w s.inp, ?_⟩
  rw [instrOutputs_isnull, bitIsSet_eq_ite, apply_ite (!·), Bool.not_false]

/-- Settles O27: the result is the test of the bit as a number. -/
theorem getbitReadsOneBit : Obligations.GetbitReadsOneBit := by
  unfold Obligations.GetbitReadsOneBit
  intro w s
  refine decodes_and_completes (.getbit w) s ⟨rfl, rfl, rfl, ?_, ?_⟩
  · simp only [instrOutputs_getbit, toNat_bitValue, ← bitIsSet_iff_and_ne_zero]
    exact Bool.cond_eq_ite ..
  · rw [instrOutputs_getbit, toNat_bitValue, toNat_bitIsSet]

end Sys2Proof.Machine

/-! PROOFS. How the single-bit commands relate to one another: a test after a write, and the laws of
equal operands (spec 41_single_bit.md R118, R120). -/

namespace Sys2Proof.Machine

open Sys2Proof.Safety

/-! ### Truncation against the bitwise operations -/

section Truncation

variable (n : Nat) (x y : Word)

theorem trunc_trunc : trunc n (trunc n x) = trunc n x :=
  trunc_congr fun k hk => by rw [getLsbD_trunc, decide_eq_true hk, Bool.true_and]

theorem trunc_or : trunc n (x ||| y) = trunc n x ||| trunc n y := by
  simp only [trunc, BitVec.setWidth_or]

theorem trunc_and : trunc n (x &&& y) = trunc n x &&& trunc n y := by
  simp only [trunc, BitVec.setWidth_and]

theorem trunc_xor : trunc n (x ^^^ y) = trunc n x ^^^ trunc n y := by
  simp only [trunc, BitVec.setWidth_xor]

end Truncation

/-- The complement below position n is the difference from the largest n-bit number. -/
theorem toNat_trunc_not64 {n : Nat} (hn : n ≤ 64) (x : Word) :
    (trunc n (not64 x)).toNat = 2 ^ n - 1 - (trunc n x).toNat := by
  have hlt : (trunc n x).toNat < 2 ^ n := toNat_trunc n x ▸ Nat.mod_lt _ (Nat.two_pow_pos n)
  apply Nat.eq_of_testBit_eq
  intro k
  rw [Nat.sub_sub, Nat.add_comm 1, Nat.testBit_two_pow_sub_succ hlt, ← BitVec.getLsbD,
    ← BitVec.getLsbD, getLsbD_trunc, getLsbD_trunc, getLsbD_not64]
  by_cases hk : k < n
  · simp [hk, hk.trans_le hn]
  · simp [hk]

section Relations

variable (cfg : Config) (w : Width) (bf : Word) (pos len : Index) (val : Word)

/-! ### A test after a write -/

theorem isset_flag : (command cfg (.isset w) bf pos len val).flag =
    (decide (pos.toNat % 64 < w.bits) && bf.getLsbD (pos.toNat % 64)) := by
  rw [command_eq_instrOutputs, instrOutputs_flag, flagBit, transaction_pos, transaction_bf]

/-- ISNULL is the complement of ISSET (R115). -/
theorem isnull_flag : (command cfg (.isnull w) bf pos len val).flag =
    !(command cfg (.isset w) bf pos len val).flag := by
  rw [isset_flag, command_eq_instrOutputs, instrOutputs_flag, flagBit, transaction_pos,
    transaction_bf]

theorem getLsbD_clrbit_result_index :
    (command cfg (.clrbit w) bf pos len val).result.getLsbD (pos.toNat % 64) = false := by
  rw [getLsbD_command_result _ _ _ _ _ (Nat.mod_lt _ (by decide))]
  simp [resultBit]

theorem getLsbD_setbit_result_index :
    (command cfg (.setbit w) bf pos len val).result.getLsbD (pos.toNat % 64) =
      decide (pos.toNat % 64 < w.bits) := by
  rw [getLsbD_command_result _ _ _ _ _ (Nat.mod_lt _ (by decide))]
  simp [resultBit]

/-! ### Equal operands -/

theorem getbit_result_eq_bitValue : (command cfg (.getbit w) bf pos len val).result =
    bitValue (command cfg (.isset w) bf pos len val).flag := by
  rw [isset_flag, command_eq_instrOutputs, instrOutputs_getbit, bitIsSet_eq, transaction_pos,
    transaction_bf]

theorem setbit_result_eq_or : (command cfg (.setbit w) bf pos len val).result =
    trunc w.bits bf ||| trunc w.bits (command cfg (.bit w) bf pos len val).result := by
  simp only [command_eq_instrOutputs, instrOutputs_setbit, instrOutputs_bit, bfW, posBit,
    transaction_bf, transaction_pos, trunc_or, trunc_trunc]

theorem tglbit_result_eq_xor : (command cfg (.tglbit w) bf pos len val).result =
    trunc w.bits bf ^^^ trunc w.bits (command cfg (.bit w) bf pos len val).result := by
  simp only [command_eq_instrOutputs, instrOutputs_tglbit, instrOutputs_bit, bfW, posBit,
    transaction_bf, transaction_pos, trunc_xor, trunc_trunc]

theorem toNat_clrbit_result_eq_and : (command cfg (.clrbit w) bf pos len val).result.toNat =
    (trunc w.bits bf).toNat &&&
      (2 ^ w.bits - 1 - (trunc w.bits (command cfg (.bit w) bf pos len val).result).toNat) := by
  simp only [command_eq_instrOutputs, instrOutputs_clrbit, instrOutputs_bit, bfW, posBit,
    transaction_bf, transaction_pos, trunc_and, trunc_trunc, BitVec.toNat_and,
    toNat_trunc_not64 (width_bits_le w)]

/-- Flipping bit e clears it where it stands and sets it where it does not. -/
theorem tglbit_result_eq_ite : (command cfg (.tglbit w) bf pos len val).result =
    if (command cfg (.isset w) bf pos len val).flag
      then (command cfg (.clrbit w) bf pos len val).result
      else (command cfg (.setbit w) bf pos len val).result := by
  apply BitVec.eq_of_getLsbD_eq
  intro k hk
  rw [isset_flag, apply_ite (BitVec.getLsbD · k)]
  simp only [getLsbD_command_result _ _ _ _ _ hk, resultBit, transaction_bf, transaction_pos]
  by_cases he : k = pos.toNat % 64
  · subst he
    by_cases hw : pos.toNat % 64 < w.bits
    · cases bf.getLsbD (pos.toNat % 64) <;> simp [hw]
    · simp [hw]
  · simp [he]

/-- The bit at the reduced index is the field of length 1 that starts there. -/
theorem getbit_result_eq_getbits : (command cfg (.getbit w) bf pos len val).result =
    (command cfg (.getbits w) bf (BitVec.ofNat 8 (pos.toNat % 64)) 1#8 val).result := by
  have hindex : (BitVec.ofNat 8 (pos.toNat % 64)).toNat = pos.toNat % 64 := by
    rw [BitVec.toNat_ofNat]; omega
  apply BitVec.eq_of_getLsbD_eq
  intro k hk
  simp only [getLsbD_command_result _ _ _ _ _ hk, resultBit, transaction_bf, transaction_pos,
    transaction_len, hindex]
  by_cases h0 : k = 0
  · by_cases hw : pos.toNat % 64 < w.bits <;> simp [h0, hw]
  · simp [h0]

end Relations

/-- Settles O36: the test reads bit e, which CLRBIT made 0 and SETBIT made 1 if it is one of the
operand's. -/
theorem setThenTestClearThenTest : Obligations.SetThenTestClearThenTest := by
  unfold Obligations.SetThenTestClearThenTest
  intro cfg w bf pos len val cleared set
  have hclear : (command cfg (.isset w) cleared pos len val).flag = false := by
    rw [isset_flag, getLsbD_clrbit_result_index, Bool.and_false]
  refine ⟨hclear, ?_, ?_⟩
  · rw [isnull_flag, hclear, Bool.not_false]
  · rw [isset_flag, getLsbD_setbit_result_index, Bool.and_self]

/-- Settles O38: GETBIT drives the test of ISSET as a number; the others by the laws of truncation
and bit by bit. -/
theorem singleBitRelations : Obligations.SingleBitRelations := by
  unfold Obligations.SingleBitRelations
  intro cfg w bf pos len val run one
  exact ⟨getbit_result_eq_bitValue cfg w bf pos len val, isnull_flag cfg w bf pos len val,
    setbit_result_eq_or cfg w bf pos len val, toNat_clrbit_result_eq_and cfg w bf pos len val,
    tglbit_result_eq_xor cfg w bf pos len val, tglbit_result_eq_ite cfg w bf pos len val,
    getbit_result_eq_getbits cfg w bf pos len val⟩

end Sys2Proof.Machine

/-! PROOFS. PARSESTEP, and the PARSEBITS fold over it as a number and as lines of a listing (spec
42_parsebits_aux.md R130 to R133; 30_encoding.md R75). -/

namespace Sys2Proof.Machine

open Sys2Proof.Safety

/-! ### One character -/

theorem toNat_charIsOne (cfg : Config) (t : Transaction) :
    (charIsOne cfg t).toNat = if t.val = cfg.charOne then 1 else 0 := by
  rw [charIsOne_eq]
  exact Bool.cond_decide _ 1 0

/-- Settles O34: truncation, shift and `|` are the same on words and on naturals; bit by bit, the
character enters at bit 0, which lies below every width. -/
theorem parsestepShiftsCharacterIn : Obligations.ParsestepShiftsCharacterIn := by
  unfold Obligations.ParsestepShiftsCharacterIn
  refine ⟨rfl, fun w s haux => ?_⟩
  refine decodes_and_completes (.parsestep w) s ⟨by simp [haux], by simp [haux], by simp [haux],
    ?_, fun k _ => ?_⟩
  · rw [instrOutputs_parsestep, auxOutputs_of_hasAux haux, toNat_trunc_eq_natTrunc,
      BitVec.toNat_or, toNat_shl64, toNat_bfW, toNat_bitValue, toNat_charIsOne, natShl64]
  · have h0 : 0 < w.bits := Nat.lt_of_lt_of_le (by decide) (width_bits_ge w)
    rw [getLsbD_result_parsestep, resultBit, haux, Bool.true_and]
    by_cases hk : k = 0 <;> simp [hk, h0]

section ParseStep

variable {cfg : Config} (w : Width) (a c : Word)

theorem getLsbD_parseStep (haux : cfg.hasAux = true) (k : Nat) :
    (parseStep cfg w a c).getLsbD k = (decide (k < w.bits) &&
      (if k = 0 then decide (c = cfg.charOne) else a.getLsbD (k - 1))) := by
  rw [parseStep, eval_eq_instrOutputs, transaction_cmd, decodeCommand_encodeCommand,
    getLsbD_result_parsestep, resultBit, haux, Bool.true_and, transaction_val, transaction_bf]

/-- Shifting a character in is doubling and adding it, modulo 2^W (R130). -/
theorem toNat_parseStep (haux : cfg.hasAux = true) :
    (parseStep cfg w a c).toNat = Nat.bit (decide (c = cfg.charOne)) a.toNat % 2 ^ w.bits := by
  apply Nat.eq_of_testBit_eq
  intro k
  rw [← BitVec.getLsbD, getLsbD_parseStep w a c haux, Nat.testBit_mod_two_pow]
  cases k with
  | zero => rw [if_pos rfl, Nat.testBit_bit_zero]
  | succ k => rw [if_neg k.succ_ne_zero, Nat.testBit_bit_succ, Nat.add_sub_cancel, BitVec.getLsbD]

/-! ### The same character twice -/

/-- W copies of one character's bit, below zeros. -/
theorem getLsbD_ite_mask (p : Prop) [Decidable p] (k : Nat) :
    (if p then mask w.bits else 0#64).getLsbD k = (decide (k < w.bits) && decide p) := by
  split
  · by_cases hk : k < w.bits
    · simp [getLsbD_mask, hk.trans_le (width_bits_le w), *]
    · simp [getLsbD_mask, hk]
  · simp [*]

/-- A step changes nothing exactly when bit 0 is the character and every other bit below W is equal
to the one below it, that is, when all W bits are the character (R131). -/
theorem parseStep_eq_self_iff (haux : cfg.hasAux = true) :
    parseStep cfg w a c = a ↔ a = if c = cfg.charOne then mask w.bits else 0#64 := by
  constructor
  · intro hfix
    have hstep := getLsbD_parseStep w a c haux
    rw [hfix] at hstep
    have hbit (k : Nat) : a.getLsbD k = (decide (k < w.bits) && decide (c = cfg.charOne)) := by
      induction k with
      | zero => rw [hstep, if_pos rfl]
      | succ k ih =>
        rw [hstep, if_neg k.succ_ne_zero, Nat.add_sub_cancel, ih]
        by_cases hk : k + 1 < w.bits
        · simp [hk, (Nat.lt_succ_self k).trans hk]
        · simp [hk]
    exact BitVec.eq_of_getLsbD_eq fun k _ => by rw [hbit, getLsbD_ite_mask]
  · intro hall
    apply BitVec.eq_of_getLsbD_eq
    intro k _
    rw [getLsbD_parseStep w a c haux, hall, getLsbD_ite_mask, getLsbD_ite_mask]
    by_cases hk : k < w.bits
    · simp [hk, (Nat.sub_le k 1).trans_lt hk]
    · simp [hk]

end ParseStep

/-- Settles O49: the examples compute; the result of a step is a fixed point of the same step
exactly when all its W bits are the character. -/
theorem parsestepNotIdempotent : Obligations.ParsestepNotIdempotent := by
  unfold Obligations.ParsestepNotIdempotent
  refine ⟨fun ⟨hasAux, charOne⟩ haux hone => ?_, fun cfg w a c haux =>
    parseStep_eq_self_iff w (parseStep cfg w a c) c haux⟩
  subst haux hone
  decide

/-! ### A string of characters as a number -/

/-- The binary number the characters spell, leftmost first (R133). -/
def spelled (cfg : Config) (cs : List Word) : Nat :=
  ∑ j : Fin cs.length, (if cs[j] = cfg.charOne then 1 else 0) * 2 ^ (cs.length - 1 - j.val)

theorem spelled_nil (cfg : Config) : spelled cfg [] = 0 := rfl

theorem spelled_cons (cfg : Config) (c : Word) (cs : List Word) :
    spelled cfg (c :: cs) =
      (if c = cfg.charOne then 1 else 0) * 2 ^ cs.length + spelled cfg cs := by
  simp [spelled, Fin.sum_univ_succ, Nat.sub_sub, Nat.add_comm]

/-- The accumulator's old bits move up by one place per character, and those that pass W are lost
(R133). -/
theorem toNat_foldl_parseStep {cfg : Config} (w : Width) (haux : cfg.hasAux = true)
    (cs : List Word) (a : Word) (ha : a.toNat < 2 ^ w.bits) :
    (cs.foldl (parseStep cfg w) a).toNat =
      (a.toNat * 2 ^ cs.length + spelled cfg cs) % 2 ^ w.bits := by
  induction cs generalizing a with
  | nil => simp [spelled_nil, Nat.mod_eq_of_lt ha]
  | cons c cs ih =>
    have hstep := toNat_parseStep w a c haux
    have hlt : (parseStep cfg w a c).toNat < 2 ^ w.bits :=
      hstep ▸ Nat.mod_lt _ (Nat.two_pow_pos _)
    have hb : (decide (c = cfg.charOne)).toNat = if c = cfg.charOne then 1 else 0 :=
      Bool.cond_decide _ 1 0
    rw [List.foldl_cons, ih _ hlt, hstep, Nat.add_mod, Nat.mod_mul_mod, ← Nat.add_mod,
      Nat.bit_val, hb, spelled_cons, List.length_cons]
    congr 1
    ring

/-- Settles O50: the fold starts from the accumulator 0, so only the characters are left. -/
theorem parsebitsClosedForm : Obligations.ParsebitsClosedForm := by
  unfold Obligations.ParsebitsClosedForm
  intro cfg w cs haux
  have hfold := toNat_foldl_parseStep w haux cs 0#64 (Nat.two_pow_pos _)
  rwa [BitVec.toNat_zero, Nat.zero_mul, Nat.zero_add] at hfold

/-! ### The lines of a string -/

theorem run_succ_of_step_eq_next {s s' : State} (h : step s = .next s') (k : Nat) :
    Host.Core.run core (k + 1) s = Host.Core.run core k s' := by
  have hcore : core.step s = .next s' := h
  simp only [Host.Core.run, hcore]

theorem lineTransaction_parsestep_lit {h : Vars} {v : Name} {a : Word} (hv : h.get v = some a)
    (w : Width) (c : Word) :
    lineTransaction h (.parsestep w v (.lit c)) =
      .ok (transaction (.parsestep w) a 0#8 0#8 c) :=
  formTransaction_eq_ok_iff.mpr ⟨a, 0#8, 0#8, c, operandValue_var h hv, indexValue_unusedPort h,
    indexValue_unusedPort h, operandValue_lit h c, rfl⟩

/-- A PARSESTEP line replaces the variable's value by the next accumulator (R73, R130). With
`HAS_AUX` = 0 that is the 0 of a reserved command, and the line also sets `ILL`. -/
theorem step_parsestep_line {s : State} {w : Width} {v : Name} {a c : Word} {rest : List Line}
    (hv : v.destination = true) (hlist : s.listing = .command (.parsestep w v (.lit c)) :: rest)
    (ha : s.vars.get v = some a) :
    ∃ t, step s = .next t ∧ t.listing = rest ∧ t.cfg = s.cfg ∧
      t.vars.get v = some (parseStep s.cfg w a c) := by
  have hwf : (CommandLine.parsestep w v (.lit c)).wellFormed = true := by
    simp [CommandLine.wellFormed, Operand.wellFormed, hv]
  exact ⟨_, commandLineEvaluatesOnce s _ rest _ hlist hwf (lineTransaction_parsestep_lit ha w c),
    rfl, rfl, Vars.get_set_same _ v _⟩

/-- The PARSESTEP lines fold the characters into whatever the variable holds (R132). -/
theorem run_parsestep_lines {w : Width} {v : Name} {rest : List Line} (hv : v.destination = true)
    (cs : List Word) {s : State} {a : Word} (ha : s.vars.get v = some a)
    (hlist : s.listing = cs.map (fun c => .command (.parsestep w v (.lit c))) ++ rest) :
    ∃ t, Host.Core.run core cs.length s = .next t ∧ t.listing = rest ∧ t.cfg = s.cfg ∧
      t.vars.get v = some (cs.foldl (parseStep s.cfg w) a) := by
  induction cs generalizing s a with
  | nil => exact ⟨s, rfl, hlist, rfl, ha⟩
  | cons c cs ih =>
    obtain ⟨s', hstep, hlist', hcfg, ha'⟩ := step_parsestep_line hv hlist ha
    rw [List.length_cons, run_succ_of_step_eq_next hstep, List.foldl_cons, ← hcfg]
    rw [← hcfg] at ha'
    exact ih ha' hlist'

/-- Settles O56: `.let` makes the variable the accumulator 0, and the other lines fold the
characters' codes into it. -/
theorem parsebitsLinesRunFold : Obligations.ParsebitsLinesRunFold := by
  unfold Obligations.ParsebitsLinesRunFold
  intro s w v str rest hv hlist
  obtain ⟨vars, hstep, hzero, -⟩ := letAssignsVariable s v 0#64 _ hlist hv
  rw [run_succ_of_step_eq_next hstep]
  have hrun := run_parsestep_lines (w := w) (rest := rest) hv (str.map charCode)
    (s := { s with vars := vars, listing := _ }) hzero (by rw [List.map_map])
  rwa [List.length_map] at hrun

end Sys2Proof.Machine

/-! PROOFS. The population count: as a count of positions, as the fallback loop, and as what ONES
and ZEROS answer (spec 43_popcount_aux.md R140 to R145). -/

namespace Sys2Proof.Machine

open Sys2Proof.Safety

/-! ### The count of positions -/

/-- The positions below `n` at which `v` is 1. -/
def onePositions (n : Nat) (v : Word) : Finset Nat :=
  (Finset.range n).filter (fun k => v.getLsbD k = true)

theorem mem_onePositions {n k : Nat} {v : Word} :
    k ∈ onePositions n v ↔ k < n ∧ v.getLsbD k = true := by
  rw [onePositions, Finset.mem_filter, Finset.mem_range]

theorem popcount_eq_count (n : Nat) (v : Word) :
    popcount n v = Nat.count (fun k => v.getLsbD k = true) n := by
  induction n with
  | zero => rfl
  | succ n ih => rw [popcount_succ, ih, Nat.count_succ]

theorem popcount_eq_card (n : Nat) (v : Word) : popcount n v = (onePositions n v).card := by
  rw [popcount_eq_count, Nat.count_eq_card_filter_range, onePositions]

theorem onesBelow_eq_card (n : Nat) (v : Word) : onesBelow n v = (onePositions n v).card := by
  rw [← popcount_eq_onesBelow, popcount_eq_card]

/-- Each position below `n` holds a 1 or a 0. -/
theorem card_zero_positions (n : Nat) (v : Word) :
    ((Finset.range n).filter (fun k => v.getLsbD k = false)).card =
      n - (onePositions n v).card := by
  have hsplit := Finset.card_filter_add_card_filter_not (s := Finset.range n)
    (fun k => v.getLsbD k = true)
  simp only [Bool.not_eq_true, Finset.card_range] at hsplit
  exact Nat.eq_sub_of_add_eq' hsplit

/-- Settles O19: the list of the definition and the finite set hold the same positions. -/
theorem popcountCountsLowBits : Obligations.PopcountCountsLowBits := fun w v =>
  ⟨popcount_eq_card w.bits v, popcount_le w.bits v, (popcount_trunc w.bits v).symm⟩

/-! ### The loop that clears the lowest set bit -/

/-- A number is `2^j` times an odd one, j its lowest set bit. Subtracting 1 clears bit j, sets the
bits below it and keeps those above. -/
theorem testBit_and_pred_two_pow_mul_odd (j q k : Nat) :
    (2 ^ j * (2 * q + 1) &&& (2 ^ j * (2 * q + 1) - 1)).testBit k =
      (decide (k ≠ j) && (2 ^ j * (2 * q + 1)).testBit k) := by
  have hpos : 0 < 2 ^ j := Nat.two_pow_pos j
  have hpred : 2 ^ j * (2 * q + 1) - 1 = 2 ^ j * (2 * q) + (2 ^ j - 1) := by
    rw [Nat.mul_succ]; omega
  rw [Nat.testBit_and, hpred, Nat.testBit_two_pow_mul, Nat.testBit_two_pow_mul_add _ (by omega)]
  obtain hlt | rfl | hgt := Nat.lt_trichotomy k j
  · simp [hlt.not_ge]
  · simp
  · obtain ⟨i, rfl⟩ := Nat.exists_eq_add_of_lt hgt
    simp [Nat.add_assoc, Nat.testBit_succ, show (2 * q + 1) / 2 = q by omega]

theorem exists_testBit_and_pred {m : Nat} (hm : m ≠ 0) :
    ∃ j, m.testBit j = true ∧ ∀ k, (m &&& (m - 1)).testBit k = (decide (k ≠ j) && m.testBit k) := by
  obtain ⟨j, _, ⟨q, rfl⟩, rfl⟩ := Nat.exists_eq_two_pow_mul_odd hm
  exact ⟨j, by simp [Nat.testBit_two_pow_mul], testBit_and_pred_two_pow_mul_odd j q⟩

/-- One pass of the loop removes one position, that of the lowest set bit (R145). -/
theorem onePositions_and_pred {v : Word} (hv : v ≠ 0#64) :
    ∃ j ∈ onePositions 64 v, onePositions 64 (v &&& (v - 1#64)) = (onePositions 64 v).erase j := by
  have hpred : (v - 1#64).toNat = v.toNat - 1 := by bv_omega
  obtain ⟨j, hj, hbits⟩ := exists_testBit_and_pred (m := v.toNat) (by bv_omega)
  refine ⟨j, mem_onePositions.mpr ⟨BitVec.lt_of_getLsbD hj, hj⟩, Finset.ext fun k => ?_⟩
  rw [Finset.mem_erase, mem_onePositions, mem_onePositions, BitVec.getLsbD, BitVec.toNat_and, hpred,
    hbits, Bool.and_eq_true, decide_eq_true_iff, BitVec.getLsbD, and_left_comm]

theorem popcount_and_pred {v : Word} (hv : v ≠ 0#64) :
    popcount 64 v = popcount 64 (v &&& (v - 1#64)) + 1 := by
  obtain ⟨j, hj, herase⟩ := onePositions_and_pred hv
  rw [popcount_eq_card, popcount_eq_card, herase, Finset.card_erase_add_one hj]

theorem popcount_eq_zero_iff {v : Word} : popcount 64 v = 0 ↔ v = 0#64 := by
  constructor
  · intro hzero
    by_contra hv
    rw [popcount_and_pred hv] at hzero
    exact Nat.succ_ne_zero _ hzero
  · rintro rfl
    decide

/-- The loop runs once for each 1, so fuel for that many passes is enough. -/
theorem kernighan_eq_add_popcount (fuel : Nat) (v : Word) (c : Nat) (hfuel : popcount 64 v ≤ fuel) :
    kernighan fuel v c = c + popcount 64 v := by
  induction fuel generalizing v c with
  | zero => rw [kernighan, Nat.le_zero.mp hfuel, Nat.add_zero]
  | succ fuel ih =>
    rw [kernighan]
    split
    · next hv => rw [popcount_eq_zero_iff.mpr hv, Nat.add_zero]
    · next hv =>
      rw [popcount_and_pred hv] at hfuel ⊢
      rw [ih _ _ (Nat.le_of_succ_le_succ hfuel), Nat.add_right_comm, Nat.add_assoc]

/-- The operand has no 1 from position W up. -/
theorem onePositions_bfW (w : Width) (t : Transaction) :
    onePositions 64 (bfW w t) = onePositions w.bits (bfW w t) := by
  ext k
  simp only [mem_onePositions, getLsbD_bfW, Bool.and_eq_true, decide_eq_true_eq]
  exact ⟨fun ⟨_, hk, hbit⟩ => ⟨hk, hk, hbit⟩,
    fun ⟨hk, hbit⟩ => ⟨hk.trans_le (width_bits_le w), hbit⟩⟩

/-- Settles O20: 64 passes are enough for every operand, and no 1 of it lies above W. -/
theorem kernighanLoopIsPopcount : Obligations.KernighanLoopIsPopcount := by
  unfold Obligations.KernighanLoopIsPopcount
  intro w t
  rw [kernighan_eq_add_popcount 64 _ 0 (popcount_le 64 _), Nat.zero_add, popcount_eq_card,
    onePositions_bfW, popcount_eq_card]

/-! ### ONES and ZEROS -/

theorem toNat_ofNat_of_le_width {w : Width} {n : Nat} (h : n ≤ w.bits) :
    (BitVec.ofNat 64 n).toNat = n := by
  rw [BitVec.toNat_ofNat, Nat.mod_eq_of_lt ((h.trans (width_bits_le w)).trans_lt (by decide))]

section Counts

variable {cfg : Config} (haux : cfg.hasAux = true) (w : Width) (t : Transaction)
include haux

theorem toNat_ones_result :
    (instrOutputs cfg (.ones w) t).result.toNat = (onePositions w.bits t.bf).card := by
  rw [instrOutputs_ones, auxOutputs_of_hasAux haux, toNat_ofNat_of_le_width (popcount_le _ _),
    popcount_bfW, onesBelow_eq_card]

theorem toNat_zeros_result :
    (instrOutputs cfg (.zeros w) t).result.toNat = w.bits - (onePositions w.bits t.bf).card := by
  rw [instrOutputs_zeros, auxOutputs_of_hasAux haux, toNat_ofNat_of_le_width (Nat.sub_le _ _),
    popcount_bfW, onesBelow_eq_card]

end Counts

/-- Settles O32: the count fits the result port, and the operand holds the ones of `bf` below W. -/
theorem onesCountsOneBits : Obligations.OnesCountsOneBits := by
  unfold Obligations.OnesCountsOneBits
  intro w s haux
  exact decodes_and_completes (.ones w) s
    ⟨by simp [haux], by simp [haux], by simp [haux], toNat_ones_result haux w s.inp⟩

/-- Settles O33: the positions below W that hold no 1 hold a 0. -/
theorem zerosCountsZeroBits : Obligations.ZerosCountsZeroBits := by
  unfold Obligations.ZerosCountsZeroBits
  intro w s haux
  have hresult := toNat_zeros_result haux w s.inp
  exact decodes_and_completes (.zeros w) s ⟨by simp [haux], by simp [haux], by simp [haux],
    hresult, hresult.trans (card_zero_positions _ _).symm⟩

/-- Settles O51: no more than W positions hold a 1, so the subtraction of ZEROS is exact. -/
theorem onesPlusZerosIsWidth : Obligations.OnesPlusZerosIsWidth := by
  unfold Obligations.OnesPlusZerosIsWidth
  intro cfg w bf pos len val haux
  rw [command_eq_instrOutputs, command_eq_instrOutputs, toNat_ones_result haux,
    toNat_zeros_result haux, transaction_bf, transaction_bf]
  exact Nat.add_sub_of_le (popcount_eq_card w.bits bf ▸ popcount_le w.bits bf)

end Sys2Proof.Machine

/-! PROOFS. What each range command answers: its command word, its outputs as a number and bit by
bit, and the frame; the out-of-range predicate (spec 44_range.md R150 to R153, R155, R160). -/

namespace Sys2Proof.Machine

open Sys2Proof.Safety

/-! ### The out-of-range predicate -/

theorem oorRange_iff_natOor (width pos len : Nat) :
    oorRange width pos len = true ↔ natOor width pos len := by
  simp only [oorRange, natOor, Bool.or_eq_true, decide_eq_true_eq, or_assoc]

/-- Settles O40: the definition, its short form and the range inside the operand. -/
theorem oorRangeShortForm : Obligations.OorRangeShortForm := by
  unfold Obligations.OorRangeShortForm
  intro w pos len
  refine ⟨oorRange_iff_natOor w.bits pos len, ?_, oorRange_eq_false_iff w pos len⟩
  rw [oorRange_eq_short]
  simp only [Bool.or_eq_true, Bool.and_eq_true, decide_eq_true_eq, gt_iff_lt]

/-! ### The mask and the field on naturals -/

theorem toNat_mask_eq_natMask (n : Nat) : (mask n).toNat = natMask n := toNat_mask n

theorem toNat_shl64_eq_natShl64 (x : Word) (s : Nat) : (shl64 x s).toNat = natShl64 x.toNat s :=
  toNat_shl64 x s

theorem toNat_shr_eq_natShr (x : Word) (s : Nat) : (shr x s).toNat = natShr x.toNat s :=
  toNat_shr x s

theorem toNat_field (t : Transaction) :
    (field t).toNat = natShl64 (natMask t.len.toNat) t.pos.toNat := by
  rw [field, fieldMask, toNat_shl64_eq_natShl64, toNat_mask_eq_natMask]

/-! ### The bits of a field -/

section FieldBits

variable (cfg : Config) (w : Width) (t : Transaction) (k : Nat)

/-- Bit k of GETBITS is bit `pos + k` of the operand, for the k below `len` (R151). -/
theorem getLsbD_result_getbits_eq_ite : (instrOutputs cfg (.getbits w) t).result.getLsbD k =
    if k < t.len.toNat ∧ t.pos.toNat + k < w.bits
      then t.bf.getLsbD (t.pos.toNat + k) else false := by
  by_cases hk : k < 64
  · rw [getLsbD_result_getbits cfg w t k hk, resultBit, ← Bool.decide_and]
    split <;> simp [*]
  · have hout : ¬ t.pos.toNat + k < w.bits := by have := width_bits_le w; omega
    rw [BitVec.getLsbD_of_ge _ k (Nat.not_lt.mp hk), if_neg fun h => hout h.2]

/-- Bit k of SETBITS is taken from `val` inside the field and from the operand outside (R152). -/
theorem getLsbD_result_setbits_eq_ite : (instrOutputs cfg (.setbits w) t).result.getLsbD k =
    (decide (k < w.bits) && if t.pos.toNat ≤ k ∧ k < t.pos.toNat + t.len.toNat
      then t.val.getLsbD (k - t.pos.toNat) else t.bf.getLsbD k) := by
  rw [getLsbD_result_setbits, resultBit]
  simp only [Bool.and_eq_true, decide_eq_true_eq]

/-- Bit k of CLRBITS is 0 inside the field and taken from the operand outside (R153). -/
theorem getLsbD_result_clrbits_eq_ite : (instrOutputs cfg (.clrbits w) t).result.getLsbD k =
    (decide (k < w.bits) && if t.pos.toNat ≤ k ∧ k < t.pos.toNat + t.len.toNat
      then false else t.bf.getLsbD k) := by
  rw [getLsbD_result_clrbits, resultBit, ← Bool.decide_and]
  split <;> simp [*]

end FieldBits

/-! ### The commands -/

/-- Settles O28: the result is the mask itself. -/
theorem maskGivesLowBits : Obligations.MaskGivesLowBits := by
  unfold Obligations.MaskGivesLowBits
  intro w s
  exact decodes_and_completes (.mask w) s ⟨rfl, rfl, decide_eq_true_iff,
    toNat_mask_eq_natMask s.inp.len.toNat⟩

/-- Settles O29: the shift, the mask and the operand are the same on words and on naturals. -/
theorem getbitsExtractsField : Obligations.GetbitsExtractsField := by
  unfold Obligations.GetbitsExtractsField
  intro w s
  refine decodes_and_completes (.getbits w) s ⟨rfl, rfl, oorRange_iff_natOor _ _ _, ?_,
    fun k _ => getLsbD_result_getbits_eq_ite s.cfg w s.inp k⟩
  rw [instrOutputs_getbits, BitVec.toNat_and, toNat_shr_eq_natShr, toNat_bfW, toNat_mask_eq_natMask]

/-- Settles O30: clearing the field and inserting the new bits are the same on words and on
naturals. -/
theorem setbitsInsertsField : Obligations.SetbitsInsertsField := by
  unfold Obligations.SetbitsInsertsField
  intro w s
  refine decodes_and_completes (.setbits w) s ⟨rfl, rfl, oorRange_iff_natOor _ _ _, ?_,
    fun k _ => getLsbD_result_setbits_eq_ite s.cfg w s.inp k⟩
  rw [instrOutputs_setbits, toNat_trunc_eq_natTrunc, BitVec.toNat_or, BitVec.toNat_and, toNat_bfW,
    toNat_not64_eq_natNot64, toNat_field, toNat_shl64_eq_natShl64, BitVec.toNat_and,
    toNat_mask_eq_natMask]

/-- Settles O31: clearing the field is the same on words and on naturals. -/
theorem clrbitsClearsField : Obligations.ClrbitsClearsField := by
  unfold Obligations.ClrbitsClearsField
  intro w s
  refine decodes_and_completes (.clrbits w) s ⟨rfl, rfl, oorRange_iff_natOor _ _ _, ?_,
    fun k _ => getLsbD_result_clrbits_eq_ite s.cfg w s.inp k⟩
  rw [instrOutputs_clrbits, toNat_trunc_eq_natTrunc, BitVec.toNat_and, toNat_bfW,
    toNat_not64_eq_natNot64, toNat_field]

/-- Settles O45: outside the field both commands take the bit from the operand. -/
theorem bitsOutsideFieldUnchanged : Obligations.BitsOutsideFieldUnchanged := by
  unfold Obligations.BitsOutsideFieldUnchanged
  intro w s i hi
  refine ⟨_, exec_eq_next_instrOutputs i s, fun k hk hout => ?_⟩
  have hfield : ¬ (s.inp.pos.toNat ≤ k ∧ k < s.inp.pos.toNat + s.inp.len.toNat) := by omega
  simp only [List.mem_cons, List.not_mem_nil, or_false] at hi
  obtain rfl | rfl := hi
  · rw [getLsbD_result_setbits_eq_ite, if_neg hfield, decide_eq_true hk, Bool.true_and]
  · rw [getLsbD_result_clrbits_eq_ite, if_neg hfield, decide_eq_true hk, Bool.true_and]

end Sys2Proof.Machine

/-! PROOFS. How the range commands relate to one another and to the single-bit ones, in every class
of ranges (spec 44_range.md R156 to R159). -/

namespace Sys2Proof.Machine

open Sys2Proof.Safety

/-! ### Masks against one another -/

theorem mask_and_mask_of_le {m n : Nat} (h : m ≤ n) : mask m &&& mask n = mask m := by
  apply BitVec.eq_of_getLsbD_eq
  intro k hk
  rw [BitVec.getLsbD_and, getLsbD_mask, getLsbD_mask]
  by_cases hm : k < m
  · simp [hk, hm, hm.trans_le h]
  · simp [hm]

theorem mask_zero : mask 0 = 0#64 := by decide

section Relations

variable (cfg : Config) (w : Width) (bf : Word) (pos len : Index) (val : Word)

/-! ### The bits of a range command on its operands -/

theorem getLsbD_command_getbits (k : Nat) :
    (command cfg (.getbits w) bf pos len val).result.getLsbD k =
      if k < len.toNat ∧ pos.toNat + k < w.bits then bf.getLsbD (pos.toNat + k) else false := by
  rw [command_eq_instrOutputs]
  exact getLsbD_result_getbits_eq_ite cfg w _ k

theorem getLsbD_command_setbits (k : Nat) :
    (command cfg (.setbits w) bf pos len val).result.getLsbD k =
      (decide (k < w.bits) && if pos.toNat ≤ k ∧ k < pos.toNat + len.toNat
        then val.getLsbD (k - pos.toNat) else bf.getLsbD k) := by
  rw [command_eq_instrOutputs]
  exact getLsbD_result_setbits_eq_ite cfg w _ k

theorem getLsbD_command_clrbits (k : Nat) :
    (command cfg (.clrbits w) bf pos len val).result.getLsbD k =
      (decide (k < w.bits) && if pos.toNat ≤ k ∧ k < pos.toNat + len.toNat
        then false else bf.getLsbD k) := by
  rw [command_eq_instrOutputs]
  exact getLsbD_result_clrbits_eq_ite cfg w _ k

/-! ### Clearing and inserting -/

/-- CLRBITS is SETBITS of 0 (R159), so what holds of SETBITS for every `val` holds of CLRBITS. -/
theorem clrbits_result_eq_setbits_zero : (command cfg (.clrbits w) bf pos len val).result =
    (command cfg (.setbits w) bf pos len 0#64).result := by
  apply BitVec.eq_of_getLsbD_eq
  intro k _
  rw [getLsbD_command_clrbits, getLsbD_command_setbits, BitVec.getLsbD_zero]

/-- A second SETBITS of the same field overwrites the first (R157, R158). -/
theorem setbits_setbits (val' : Word) :
    (command cfg (.setbits w) (command cfg (.setbits w) bf pos len val).result pos len
        val').result =
      (command cfg (.setbits w) bf pos len val').result := by
  apply BitVec.eq_of_getLsbD_eq
  intro k _
  simp only [getLsbD_command_setbits]
  by_cases hfield : pos.toNat ≤ k ∧ k < pos.toNat + len.toNat
  · simp only [if_pos hfield]
  · simp only [if_neg hfield, Bool.and_self_left]

/-- GETBITS reads back the part of the inserted bits that lies below bit W (R157). -/
theorem getbits_setbits (val' : Word) :
    (command cfg (.getbits w) (command cfg (.setbits w) bf pos len val).result pos len
        val').result =
      val &&& mask len.toNat &&& mask (w.bits - pos.toNat) := by
  apply BitVec.eq_of_getLsbD_eq
  intro k hk
  rw [getLsbD_command_getbits, getLsbD_command_setbits, BitVec.getLsbD_and, BitVec.getLsbD_and,
    getLsbD_mask, getLsbD_mask]
  by_cases hl : k < len.toNat
  · have hw : k < w.bits - pos.toNat ↔ pos.toNat + k < w.bits := by omega
    by_cases hin : pos.toNat + k < w.bits <;> simp [hk, hl, hw, hin]
  · simp [hl]

/-! ### The report -/

/-- The three range commands report the same predicate of `pos` and `len` (R155, R159). -/
theorem oor_eq_oorRange {i : Instr} (hi : i ∈ [Instr.getbits w, .setbits w, .clrbits w]) :
    (command cfg i bf pos len val).oor = oorRange w.bits pos.toNat len.toNat := by
  rw [command_eq_instrOutputs]
  simp only [List.mem_cons, List.not_mem_nil, or_false] at hi
  obtain rfl | rfl | rfl := hi <;> rfl

/-! ### The classes of ranges -/

theorem exists_rangeClass (p l : Nat) :
    RangeClass.all.any (RangeClass.condition w.bits p l) = true := by
  have := width_bits_le w
  simp only [RangeClass.all, RangeClass.condition, List.any_cons, List.any_nil, Bool.or_false,
    Bool.or_eq_true, Bool.and_eq_true, decide_eq_true_eq]
  omega

/-- A range inside the operand is in class A, or it is the whole 64-bit word (R156). -/
theorem oorRange_eq_false_iff_class (p l : Nat) : oorRange w.bits p l = false ↔
    RangeClass.condition w.bits p l .inRange = true ∨
      RangeClass.condition w.bits p l .wholeWord = true := by
  have := width_bits_le w
  rw [oorRange_eq_false_iff]
  simp only [RangeClass.condition, Bool.and_eq_true, decide_eq_true_eq]
  omega

variable {pos len}

/-- No bit of the operand is `len` = 64 or more above `pos` (class G). -/
theorem result_eq_result_length64 (h : 64 < len.toNat) {i : Instr}
    (hi : i ∈ [Instr.getbits w, .setbits w, .clrbits w]) :
    (command cfg i bf pos len val).result = (command cfg i bf pos 64#8 val).result := by
  have hset (v : Word) : (command cfg (.setbits w) bf pos len v).result =
      (command cfg (.setbits w) bf pos 64#8 v).result := by
    apply BitVec.eq_of_getLsbD_eq
    intro k hk
    have hlen : k < pos.toNat + len.toNat := by omega
    have h64 : k < pos.toNat + (64#8).toNat := hk.trans_le (Nat.le_add_left 64 _)
    simp only [getLsbD_command_setbits, hlen, h64, and_true]
  simp only [List.mem_cons, List.not_mem_nil, or_false] at hi
  obtain rfl | rfl | rfl := hi
  · apply BitVec.eq_of_getLsbD_eq
    intro k hk
    have h64 : k < (64#8).toNat := hk
    simp only [getLsbD_command_getbits, hk.trans h, h64, true_and]
  · exact hset val
  · simp only [clrbits_result_eq_setbits_zero, hset]

theorem getbits_result_of_width_le (h : w.bits ≤ pos.toNat) :
    (command cfg (.getbits w) bf pos len val).result = 0#64 := by
  apply BitVec.eq_of_getLsbD_eq
  intro k _
  have hout : ¬ (k < len.toNat ∧ pos.toNat + k < w.bits) := by omega
  rw [getLsbD_command_getbits, if_neg hout, BitVec.getLsbD_zero]

/-- A field that starts outside the operand has none of its bits (class F). -/
theorem setbits_result_of_width_le (h : w.bits ≤ pos.toNat) :
    (command cfg (.setbits w) bf pos len val).result = trunc w.bits bf := by
  apply BitVec.eq_of_getLsbD_eq
  intro k _
  rw [getLsbD_command_setbits, getLsbD_trunc]
  by_cases hk : k < w.bits
  · have hout : ¬ (pos.toNat ≤ k ∧ k < pos.toNat + len.toNat) := by omega
    rw [if_neg hout]
  · simp [hk]

theorem getbits_result_of_wholeWord (hw : w.bits = 64) (hpos : pos.toNat = 0)
    (hlen : len.toNat = 64) : (command cfg (.getbits w) bf pos len val).result = bf := by
  apply BitVec.eq_of_getLsbD_eq
  intro k hk
  simp only [getLsbD_command_getbits, hw, hpos, hlen, hk, Nat.zero_add, and_self, if_true]

theorem setbits_result_of_wholeWord (hw : w.bits = 64) (hpos : pos.toNat = 0)
    (hlen : len.toNat = 64) : (command cfg (.setbits w) bf pos len val).result = val := by
  apply BitVec.eq_of_getLsbD_eq
  intro k hk
  simp only [getLsbD_command_setbits, hw, hpos, hlen, hk, Nat.zero_le, Nat.zero_add, and_self,
    if_true, Nat.sub_zero, decide_true, Bool.true_and]

variable (pos len)

/-! ### Fields at position 0 and fields of one bit -/

theorem getbits_at_zero : (command cfg (.getbits w) bf 0#8 len val).result =
    trunc w.bits bf &&& mask len.toNat := by
  rw [command_eq_instrOutputs, instrOutputs_getbits, bfW, shr]
  exact congrArg (· &&& mask len.toNat) (BitVec.ushiftRight_zero _)

/-- The mask is the field of all ones at position 0 (R159). -/
theorem mask_result_eq_getbits_allOnes : (command cfg (.mask w) bf pos len val).result =
    (command cfg (.getbits .w64) (BitVec.allOnes 64) 0#8 len val).result := by
  have hones : trunc Width.w64.bits (BitVec.allOnes 64) = BitVec.allOnes 64 := by decide
  rw [getbits_at_zero, hones, BitVec.allOnes_and, command_eq_instrOutputs, instrOutputs_mask,
    transaction_len]

/-- A field of length 1 is the bit SETBIT or CLRBIT names, where the index needs no reduction
(R159). -/
theorem setbits_length_one (h : pos.toNat ≤ 63) :
    (command cfg (.setbits w) bf pos 1#8 val).result =
      if val.getLsbD 0 then (command cfg (.setbit w) bf pos len val).result
        else (command cfg (.clrbit w) bf pos len val).result := by
  have hmod : pos.toNat % 64 = pos.toNat := Nat.mod_eq_of_lt (Nat.lt_succ_of_le h)
  have hfield (k : Nat) :
      (pos.toNat ≤ k ∧ k < pos.toNat + (1#8 : Index).toNat) ↔ k = pos.toNat := by
    rw [show (1#8 : Index).toNat = 1 from rfl]
    omega
  apply BitVec.eq_of_getLsbD_eq
  intro k hk
  rw [apply_ite (BitVec.getLsbD · k), getLsbD_command_setbits]
  simp only [getLsbD_command_result _ _ _ _ _ hk, resultBit, transaction_bf, transaction_pos, hmod,
    hfield]
  by_cases he : k = pos.toNat
  · subst he
    rw [Nat.sub_self]
    cases val.getLsbD 0 <;> simp
  · simp [he]

end Relations

/-- Settles O41: the classes are conditions on `pos`, `len` and W; CLRBITS answers as SETBITS of
0. -/
theorem rangeClassesDecideOor : Obligations.RangeClassesDecideOor := by
  unfold Obligations.RangeClassesDecideOor
  intro cfg w bf pos len val cls run
  have hclear : (run (.clrbits w)).result = (command cfg (.setbits w) bf pos len 0#64).result :=
    clrbits_result_eq_setbits_zero cfg w bf pos len val
  refine ⟨exists_rangeClass w pos.toNat len.toNat, fun i hi => ⟨?_, fun hlong => ?_⟩,
    fun hout => ?_, fun hword => ?_⟩
  · rw [oor_eq_oorRange cfg w bf pos len val hi]
    exact oorRange_eq_false_iff_class w pos.toNat len.toNat
  · exact result_eq_result_length64 cfg w bf val (of_decide_eq_true hlong) hi
  · have hpos : w.bits ≤ pos.toNat := of_decide_eq_true hout
    exact ⟨getbits_result_of_width_le cfg w bf val hpos,
      setbits_result_of_width_le cfg w bf val hpos,
      hclear.trans (setbits_result_of_width_le cfg w bf 0#64 hpos)⟩
  · simp only [cls, RangeClass.condition, Bool.and_eq_true, decide_eq_true_eq, and_assoc] at hword
    obtain ⟨hw, hpos, hlen⟩ := hword
    exact ⟨getbits_result_of_wholeWord cfg w bf val hw hpos hlen,
      setbits_result_of_wholeWord cfg w bf val hw hpos hlen,
      hclear.trans (setbits_result_of_wholeWord cfg w bf 0#64 hw hpos hlen)⟩

/-- Settles O42: what is read back is `val` under two masks; in range the second lets all of the
first through, outside it is 0. -/
theorem insertExtractRoundTrip : Obligations.InsertExtractRoundTrip := by
  unfold Obligations.InsertExtractRoundTrip
  intro cfg w bf pos len val set clear get
  have hclear : clear bf = (command cfg (.setbits w) bf pos len 0#64).result :=
    clrbits_result_eq_setbits_zero cfg w bf pos len val
  have hread : get (set bf) = val &&& mask len.toNat &&& mask (w.bits - pos.toNat) :=
    getbits_setbits cfg w bf pos len val val
  refine ⟨?_, fun hclass => ⟨?_, ?_⟩, fun _ => hread, fun hout => ?_⟩
  · rw [hclear]
    exact setbits_setbits cfg w bf pos len 0#64 val
  · simp only [RangeClass.condition, Bool.and_eq_true, decide_eq_true_eq] at hclass
    have hle : len.toNat ≤ w.bits - pos.toNat := by omega
    rw [hread, BitVec.and_assoc, mask_and_mask_of_le hle]
  · rw [hclear]
    exact (getbits_setbits cfg w bf pos len 0#64 val).trans (by simp)
  · rw [hread, Nat.sub_eq_zero_of_le hout, mask_zero, BitVec.and_zero]

/-- Settles O43: the second command overwrites the field with the same bits; GETBITS moves the field
down. -/
theorem rangeInsertIdempotent : Obligations.RangeInsertIdempotent := by
  unfold Obligations.RangeInsertIdempotent
  constructor
  · intro cfg w bf pos len val set clear
    refine ⟨setbits_setbits cfg w bf pos len val val, ?_⟩
    simp only [clear, clrbits_result_eq_setbits_zero, setbits_setbits]
  · intro cfg get
    simp only [get, command_eq_instrOutputs, instrOutputs_getbits]
    decide

/-- Settles O44: the relations one by one; the three reports are one predicate of `pos` and
`len`. -/
theorem rangeRelations : Obligations.RangeRelations := by
  unfold Obligations.RangeRelations
  intro cfg w bf pos len val run
  have hoor {i : Instr} (hi : i ∈ [Instr.getbits w, .setbits w, .clrbits w]) (x v : Word) :
      (command cfg i x pos len v).oor = oorRange w.bits pos.toNat len.toNat :=
    oor_eq_oorRange cfg w x pos len v hi
  refine ⟨clrbits_result_eq_setbits_zero cfg w bf pos len val, getbits_at_zero cfg w bf len val,
    mask_result_eq_getbits_allOnes cfg w bf pos len val, setbits_length_one cfg w bf pos len val,
    ?_, ?_, fun bf' val' i hi => ?_⟩
  · exact (hoor (by simp) bf val).trans (hoor (by simp) bf val).symm
  · exact (hoor (by simp) bf val).trans (hoor (by simp) bf val).symm
  · exact (hoor hi bf' val').trans (hoor hi bf val).symm

end Sys2Proof.Machine

/-! PROOFS. The status outputs exclude one another (spec 60_exceptions.md section 2, R174). -/

namespace Sys2Proof.Machine

open Sys2Proof.Safety

/-- Only ISSET and ISNULL drive `flag` (R114, R115), and neither reports a range. -/
theorem flagBit_and_oorBit (i : Instr) (t : Transaction) : (flagBit i t && oorBit i t) = false := by
  cases i with
  | isset | isnull => exact Bool.and_false _
  | _ => exact Bool.false_and _

/-- Settles O7: a command that selects no operation drives `ill` alone (R70); of one that selects an
operation `ill` is 0, and no instruction drives both `flag` and `oor`. -/
theorem atMostOneStatusOutput : Obligations.AtMostOneStatusOutput := by
  unfold Obligations.AtMostOneStatusOutput
  intro i s
  refine ⟨_, exec_eq_next_instrOutputs i s, ?_⟩
  cases hsel : i.selects s.cfg with
  | false =>
    rw [instrOutputs_of_not_selects s.inp hsel]
    decide
  | true =>
    have hill : (instrOutputs s.cfg i s.inp).ill = false := by
      rw [instrOutputs_ill, hsel, Bool.not_true]
    have hflag :
        ((instrOutputs s.cfg i s.inp).flag && (instrOutputs s.cfg i s.inp).oor) = false := by
      rw [instrOutputs_flag, instrOutputs_oor, flagBit_and_oorBit]
    simp only [hill, hflag, Bool.false_and, Bool.and_false, and_self]

end Sys2Proof.Machine

/-! PROOFS. The machine before the host has driven anything (spec 10_state.md section 4, R30;
30_encoding.md R74). -/

namespace Sys2Proof.Machine

open Sys2Proof.Safety

theorem reset_out_eq_eval : State.reset.out = eval State.reset.cfg State.reset.inp := by decide

theorem settled_reset : Settled State.reset :=
  ⟨reset_out_eq_eval ▸ answers_eval State.reset.cfg State.reset.inp, by decide⟩

/-- The host's map at reset is one write to the empty map. -/
theorem reset_vars_eq_set : State.reset.vars = Vars.set [] Name.illegal 0#64 := rfl

/-- Settles O1: the outputs are `eval` of the inputs, so the invariant is that of any evaluation,
and the variables are those of one write of `ILL`. -/
theorem resetMeetsInvariant : Obligations.ResetMeetsInvariant := by
  unfold Obligations.ResetMeetsInvariant
  refine ⟨settled_reset, reset_out_eq_eval, rfl, ?_, fun n hn => ?_, rfl⟩
  · rw [reset_vars_eq_set, Vars.get_set_same]
  · rw [reset_vars_eq_set, Vars.get_set_other _ _ _ _ hn, Vars.get]

end Sys2Proof.Machine

/-! PROOFS. Where a run stops: the operands that cannot be read, and all that a line can answer
(spec 10_state.md R31; 30_encoding.md R73, R74). -/

namespace Sys2Proof.Machine

/-! ### Operands that cannot be read -/

section Unreadable

variable {h : Vars} {i : Instr} {bf pos : Operand} (len val : Operand) {b : Word} {f : Fault}

theorem operandValue_var_of_get_eq_none {n : Name} (hn : h.get n = none) :
    operandValue h (.var n) = .error (.unassignedVariable n) := by
  rw [operandValue, hn]

theorem indexValue_of_le_toNat {o : Operand} {x : Word} (ho : operandValue h o = .ok x)
    (hx : 2 ^ Config.idxW ≤ x.toNat) : indexValue h o = .error (.indexTooWide x) := by
  simp only [indexValue, ho, if_neg (Nat.not_lt.mpr hx)]

theorem formTransaction_of_bf_error (hbf : operandValue h bf = .error f) :
    formTransaction h i bf pos len val = .error f := by
  simp only [formTransaction, hbf]

theorem formTransaction_of_pos_error (hbf : operandValue h bf = .ok b)
    (hpos : indexValue h pos = .error f) : formTransaction h i bf pos len val = .error f := by
  simp only [formTransaction, hbf, hpos]

end Unreadable

theorem step_command_of_error {s : State} {c : CommandLine} {rest : List Line} {f : Fault}
    (hlist : s.listing = .command c :: rest) (hc : c.wellFormed = true)
    (ht : lineTransaction s.vars c = .error f) : step s = .fault f := by
  rw [step_of_listing_cons hlist]
  exact runLine_command_of_error hc ht

/-! ### All that a line or a step can answer -/

/-- The error of the listing that `f` reports of the line `l`: the assembler rejects it, or it is a
command whose operands cannot be read (R31, R73, R74; log entries 6, 12). -/
def Line.HasError (h : Vars) (l : Line) (f : Fault) : Prop :=
  (f = .rejectedLine ∧ l.wellFormed = false) ∨ ∃ c, l = .command c ∧ lineTransaction h c = .error f

/-- A line completes, or it faults with its error. -/
theorem runLine_cases (l : Line) (s : State) :
    (∃ s', runLine l s = .next s') ∨ ∃ f, runLine l s = .fault f ∧ l.HasError s.vars f := by
  cases hl : l.wellFormed with
  | false => exact .inr ⟨_, runLine_of_not_wellFormed s hl, .inl ⟨rfl, hl⟩⟩
  | true =>
    cases l with
    | assign v x => exact .inl ⟨_, runLine_assign x s hl⟩
    | command c =>
      cases ht : lineTransaction s.vars c with
      | ok t => exact .inl ⟨_, runLine_command hl ht⟩
      | error f => exact .inr ⟨f, runLine_command_of_error hl ht, .inr ⟨c, rfl, ht⟩⟩

/-- A step completes, or it faults with the error of the listing's first line. -/
theorem step_cases (s : State) :
    (∃ s', step s = .next s') ∨
    ∃ f, step s = .fault f ∧ ∃ l rest, s.listing = l :: rest ∧ l.HasError s.vars f := by
  cases hlist : s.listing with
  | nil => exact .inl ⟨_, stepDrivesEval s hlist⟩
  | cons l rest =>
    rw [step_of_listing_cons hlist]
    obtain hnext | ⟨f, hf, hwhy⟩ := runLine_cases l { s with listing := rest }
    · exact .inl hnext
    · exact .inr ⟨f, hf, l, rest, rfl, hwhy⟩

/-- Settles O55: SETBIT reads its variable first and its index next, and a step has no other answers
than the ones of `step_cases`. -/
theorem listingStopsOnlyOnErrors : Obligations.ListingStopsOnlyOnErrors := by
  unfold Obligations.ListingStopsOnlyOnErrors
  refine ⟨?unassigned, ?tooWide, ?faults, ?refusals⟩
  case unassigned =>
    intro s w v i rest hlist hc hv
    exact step_command_of_error hlist hc
      (formTransaction_of_bf_error _ _ (operandValue_var_of_get_eq_none hv))
  case tooWide =>
    intro s w v n x rest hlist hc hv hn hx
    obtain ⟨b, hb⟩ := Option.ne_none_iff_exists'.mp hv
    have hindex : indexValue s.vars (.var n) = .error (.indexTooWide x) :=
      indexValue_of_le_toNat (operandValue_var s.vars hn) hx
    exact step_command_of_error hlist hc
      (formTransaction_of_pos_error _ _ (operandValue_var s.vars hb) hindex)
  case faults =>
    intro s f hstep
    obtain ⟨s', hnext⟩ | ⟨g, hg, hwhy⟩ := step_cases s
    · rw [hnext] at hstep
      cases hstep
    · rw [hg] at hstep
      cases hstep
      exact hwhy
  case refusals =>
    intro s r hstep
    obtain ⟨s', hnext⟩ | ⟨f, hf, -⟩ := step_cases s
    · rw [hnext] at hstep
      cases hstep
    · rw [hf] at hstep
      cases hstep

end Sys2Proof.Machine
